-- ==== Sys2Proof/Word.lean ====
section
/-! DEFINITION. The widths of the packet parser engine's registers (spec/10_state.md R21, R45; spec/00_scope.md R11: every
value is an unsigned integer of a stated width). A frame length or offset is a Nat kept below 2^`LEN_W`, since that width
follows from the parameter `MAX_FRAME` (R7, Config.lenWOf) and sums and comparisons of lengths and offsets are over the
natural numbers (R11); what a host read returns is a Nat, "zero-extended to whatever width the binding carries" (R194).
Assumption log 15. -/

namespace Sys2Proof

/-- A byte, 8 bits (R11). -/
abbrev Byte := BitVec 8

/-- A nibble, four bits: the IPv4 `ihl` and the TCP `data_offset` (spec/00_scope.md R17). -/
abbrev Nibble := BitVec 4

/-- A validated or computed header length in bytes, 0 to 60 (R45: W_IPHL, W_TCPHL; R21: IP_HLEN). -/
abbrev HdrLen := BitVec 6

/-- A MAC address held in one register (R23). -/
abbrev Mac := BitVec 48

end Sys2Proof
end

