-- ==== Sys2Proof/Config.lean ====
section
/-! DEFINITION. The parameters of spec/00_scope.md R7 as named constants, and the free values: what the spec calls
`any value` (spec/93_implementation_defined.md U4, U5). -/

namespace Sys2Proof.Config

/-- The default of `MAX_FRAME`, the largest admissible frame length; FB has this many bytes (R7, R60). The parameter itself
is State.maxFrame (U15). -/
abbrev maxFrame : Nat := 65536

/-- `LEN_W`, the width of every length and offset register: the least W with 2^W > `MAX_FRAME` (R7, U15). -/
def lenWOf (maxFrame : Nat) : Nat := if maxFrame = 0 then 0 else maxFrame.log2 + 1

/-- `ETH_HLEN`, the Ethernet header length (R7). -/
abbrev ethHlen : Nat := 14

/-- `IP_MIN_HLEN` (R7). -/
abbrev ipMinHlen : Nat := 20

/-- `IP_MAX_HLEN`; it has no test of its own, a nibble cannot exceed 15 (R7, R97). -/
abbrev ipMaxHlen : Nat := 60

/-- `TCP_MIN_HLEN` (R7). -/
abbrev tcpMinHlen : Nat := 20

/-- `TCP_MAX_HLEN`; it has no test of its own (R7, R102). -/
abbrev tcpMaxHlen : Nat := 60

/-- The least legal `ihl`, which counts 4-byte words: 5 (R97). -/
abbrev ipMinIhl : Nat := ipMinHlen / 4

/-- The least legal `data_offset`, which counts 4-byte words: 5 (R102). -/
abbrev tcpMinDoff : Nat := tcpMinHlen / 4

/-- `ETHERTYPE_IPV4`, the only ether-type decoded further (R7, R93). -/
abbrev etherTypeIpv4 : BitVec 16 := 0x0800

/-- `IPPROTO_TCP`, the only IPv4 protocol decoded further (R7, R98). -/
abbrev ipProtoTcp : Byte := 6

/-- `DUMP_MAX`, Renderer only: most payload bytes shown in the dump (R7, R248). -/
abbrev dumpMax : Nat := 128

/-- `DUMP_ROW`, Renderer only: bytes per dump row (R7, R249). -/
abbrev dumpRow : Nat := 16

/-- `MAC_ORDER`: which six bytes hold which MAC address (R7, R92, U14). The default is `dstFirst`. -/
inductive MacOrder where
  | dstFirst
  | srcFirst
deriving DecidableEq, Repr

/-- FREE VALUE. The byte that FB holds at an index the host has not written since the latest reset: `any value`, fixed
per byte until written (U5, R300, R301). The first argument counts the resets, so that nothing relates the
buffer after a reset to the buffer before it. Assumption log 2. -/
opaque freeByte (resets addr : Nat) : Byte

/-- FREE VALUE. What an HREAD of a result register, DEPTH, STOP_REASON or FLAGS returns while STATUS.BUSY = 1:
`any value` (U4, R22, R194). The argument counts such reads, a fresh value each time. Assumption log 3. -/
opaque freeRead (draw : Nat) : Nat

end Sys2Proof.Config
end

