-- ==== Sys2Proof/Syntax.lean ====
section
/-! DEFINITION. The instructions: one constructor per row of spec/opcode_table.json (8 parse operations, 6 host
commands, 4 wire selectors), the registers a host can name, and the codes that select an instruction. -/

namespace Sys2Proof

/-- The registers by name: numbers 0 to 21 of spec/10_state.md R21 and R30, the reserved number 15 included. -/
inductive Reg where
  | ethDst | ethSrc | ethType
  | ipVihl | ipHlen | ipProto | ipSrc | ipDst
  | tcpSport | tcpDport | tcpSeq | tcpAck | tcpDoff
  | payOff | payLen
  | reserved15
  | ctrl | status | frameLen | depth | stopReason | flags
deriving DecidableEq, Repr

/-- The instructions. Parse operations run when PHASE names them (R40, R111); host commands come from the host
(R115); a wire selector is a value of a frame field that the parse operation of its layer met and that leads the
decode on (spec/30_encoding.md R110; spec/20_memory.md R78: the frame plays the part of program text). -/
inductive Instr where
  /-- P1 CHKETH (R130). -/
  | chketh
  /-- P2 EXTETH (R131). -/
  | exteth
  /-- P3 SELIP (R132). -/
  | selip
  /-- P4 DECIHL (R150). -/
  | decihl
  /-- P5 EXTIP (R151). -/
  | extip
  /-- P6 SELTCP (R152). -/
  | seltcp
  /-- P7 DECDOFF (R170). -/
  | decdoff
  /-- P8 EXTTCP (R171). -/
  | exttcp
  /-- HRESET (R190). -/
  | hreset
  /-- HLOAD a, b (R191). -/
  | hload (a : Nat) (b : Byte)
  /-- HSETLEN n (R192). -/
  | hsetlen (n : Nat)
  /-- HSTART (R193). -/
  | hstart
  /-- HREAD r (R194). -/
  | hread (r : Reg)
  /-- HREADFB a (R195). -/
  | hreadfb (a : Nat)
  /-- ETHERTYPE.IPV4, the selector value 0x0800 met by P3 (R93). -/
  | ethertypeIpv4
  /-- IHL.LEGAL, a selector value 5 to 15 met by P4 (R97). -/
  | ihlLegal (ihl : Nibble)
  /-- PROTOCOL.TCP, the selector value 6 met by P6 (R98). -/
  | protocolTcp
  /-- DATA_OFFSET.LEGAL, a selector value 5 to 15 met by P7 (R102). -/
  | dataOffsetLegal (doff : Nibble)
deriving DecidableEq, Repr

/-- The three families of the opcode table. -/
inductive Family where
  | parseOp
  | hostCommand
  | wireSelector
deriving DecidableEq, Repr

/-- The family a row of the opcode table belongs to (its "format"). -/
def Instr.family : Instr → Family
  | .chketh | .exteth | .selip | .decihl | .extip | .seltcp | .decdoff | .exttcp => .parseOp
  | .hreset | .hload _ _ | .hsetlen _ | .hstart | .hread _ | .hreadfb _ => .hostCommand
  | .ethertypeIpv4 | .ihlLegal _ | .protocolTcp | .dataOffsetLegal _ => .wireSelector

/-- A register or buffer access by the host (R115), by register number and by buffer index. How a bus carries it is
REG_BINDING, open (U13). -/
inductive Access where
  | resetEvent
  | writeReg (r v : Nat)
  | readReg (r : Nat)
  | writeFb (a : Nat) (b : Byte)
  | readFb (a : Nat)
deriving DecidableEq, Repr

/-- What selects an instruction: a PHASE code, a host access, or the frame bytes that hold a selector field. -/
inductive Code where
  /-- A PHASE code, 4 bits (R40, R111). -/
  | phase (code : BitVec 4)
  /-- A host access (R115). -/
  | access (a : Access)
  /-- Frame bytes 12 and 13, in frame order (R92). -/
  | etherTypeBytes (b12 b13 : Byte)
  /-- Frame byte 14, `version_and_ihl` (R96). -/
  | vihlByte (b : Byte)
  /-- Frame byte 23, `protocol` (R95). -/
  | protocolByte (b : Byte)
  /-- Frame byte L4+12, which holds `data_offset` (R101). -/
  | dataOffsetByte (b : Byte)
deriving DecidableEq, Repr

/-- The family whose instructions a code can select. -/
def Code.family : Code → Family
  | .phase _ => .parseOp
  | .access _ => .hostCommand
  | .etherTypeBytes _ _ | .vihlByte _ | .protocolByte _ | .dataOffsetByte _ => .wireSelector

end Sys2Proof
end

