-- ==== Sys2Proof/WellFormed.lean ====
section
/-! DEFINITION. The operand ranges of the instructions (spec/opcode_table.json; spec/43_host_commands.md R191, R192,
R195; spec/30_encoding.md R97, R102). -/

namespace Sys2Proof

/-- An instruction whose operands the spec admits, in an instance with the given `MAX_FRAME` (U15). -/
def Instr.wf (maxFrame : Nat) : Instr → Bool
  | .chketh | .exteth | .selip | .decihl | .extip | .seltcp | .decdoff | .exttcp => true
  | .hreset | .hstart | .hread _ => true
  | .hload a _ => decide (a < maxFrame)
  | .hsetlen n => decide (n < 2 ^ Config.lenWOf maxFrame)
  | .hreadfb a => decide (a < maxFrame)
  | .ethertypeIpv4 | .protocolTcp => true
  | .ihlLegal ihl => decide (Config.ipMinIhl ≤ ihl.toNat)
  | .dataOffsetLegal doff => decide (Config.tcpMinDoff ≤ doff.toNat)

end Sys2Proof
end

