-- ==== Sys2Proof/Decode.lean ====
section
/-! DEFINITION. The decoder, total on every code and rejecting by name (spec/30_encoding.md R92 to R115), the
encoder after it, and the host's reading of a table word. -/

namespace Sys2Proof

/-- Why a code selects no instruction. -/
inductive DecodeReject where
  /-- PHASE code 0 (IDLE), 9 (DONE) or an unreachable code 10 to 15: no operation (R40, R196, U9). -/
  | notAnOperation (code : BitVec 4)
  /-- An ether-type other than 0x0800 (R93). -/
  | unsupportedEtherType (v : BitVec 16)
  /-- An `ihl` of 0 to 4 (R97). -/
  | illegalIhl (ihl : Nibble)
  /-- A protocol other than 6 (R98). -/
  | unsupportedProtocol (v : Byte)
  /-- A `data_offset` of 0 to 4 (R102). -/
  | illegalDataOffset (doff : Nibble)
  /-- A register number of 22 or above (R30, U8). -/
  | noSuchRegister (r : Nat)
  /-- A buffer index of MAX_FRAME or above (U7). -/
  | noSuchByte (a : Nat)
  /-- A FRAME_LEN value of 2^LEN_W or above (U8). -/
  | lengthNotRepresentable (n : Nat)
  /-- A write that is no command of the spec: to a register other than FRAME_LEN and CTRL.START, or of 0 to CTRL
  bit 0; it does nothing (R31, U10). -/
  | noCommand
deriving DecidableEq, Repr

/-- What the decoder answers. -/
inductive Decoded where
  | instr (i : Instr)
  | rejected (r : DecodeReject)
deriving DecidableEq, Repr

/-- The number of a register (R21, R30). -/
def Reg.number : Reg → Nat
  | .ethDst => 0 | .ethSrc => 1 | .ethType => 2
  | .ipVihl => 3 | .ipHlen => 4 | .ipProto => 5 | .ipSrc => 6 | .ipDst => 7
  | .tcpSport => 8 | .tcpDport => 9 | .tcpSeq => 10 | .tcpAck => 11 | .tcpDoff => 12
  | .payOff => 13 | .payLen => 14
  | .reserved15 => 15
  | .ctrl => 16 | .status => 17 | .frameLen => 18 | .depth => 19 | .stopReason => 20 | .flags => 21

/-- The register of a number; numbers 22 and above do not exist (R21, R30). -/
def Reg.ofNumber : Nat → Option Reg
  | 0 => some .ethDst | 1 => some .ethSrc | 2 => some .ethType
  | 3 => some .ipVihl | 4 => some .ipHlen | 5 => some .ipProto | 6 => some .ipSrc | 7 => some .ipDst
  | 8 => some .tcpSport | 9 => some .tcpDport | 10 => some .tcpSeq | 11 => some .tcpAck | 12 => some .tcpDoff
  | 13 => some .payOff | 14 => some .payLen
  | 15 => some .reserved15
  | 16 => some .ctrl | 17 => some .status | 18 => some .frameLen | 19 => some .depth | 20 => some .stopReason
  | 21 => some .flags
  | _ => none

/-- The `ihl` nibble of frame byte 14: the low one (R96). -/
def ihlOf (b : Byte) : Nibble := b.extractLsb' 0 4

/-- The IPv4 version nibble of frame byte 14: the high one (R95, R96). -/
def versionOf (b : Byte) : Nibble := b.extractLsb' 4 4

/-- The `data_offset` nibble of TCP header byte 12: the high one (R101). -/
def dataOffsetOf (b : Byte) : Nibble := b.extractLsb' 4 4

/-- A header length in bytes from its nibble: zero-extended to 6 bits, times 4 (R97, R102). -/
def hdrLenOf (n : Nibble) : HdrLen := n.setWidth 6 <<< 2

/-- The parse operation a PHASE code names (R40, R111). -/
def decodePhase (code : BitVec 4) : Decoded :=
  match code.toNat with
  | 1 => .instr .chketh
  | 2 => .instr .exteth
  | 3 => .instr .selip
  | 4 => .instr .decihl
  | 5 => .instr .extip
  | 6 => .instr .seltcp
  | 7 => .instr .decdoff
  | 8 => .instr .exttcp
  | _ => .rejected (.notAnOperation code)

/-- A host write to register r of value v (R31, R35, R115, U8, U10). -/
def decodeWriteReg (maxFrame r v : Nat) : Decoded :=
  match Reg.ofNumber r with
  | none => .rejected (.noSuchRegister r)
  | some .ctrl => if v % 2 = 1 then .instr .hstart else .rejected .noCommand
  | some .frameLen => if v < 2 ^ Config.lenWOf maxFrame then .instr (.hsetlen v) else .rejected (.lengthNotRepresentable v)
  | some _ => .rejected .noCommand

/-- The host command an access is (R115). -/
def decodeAccess (maxFrame : Nat) : Access → Decoded
  | .resetEvent => .instr .hreset
  | .writeReg r v => decodeWriteReg maxFrame r v
  | .readReg r =>
    match Reg.ofNumber r with
    | some n => .instr (.hread n)
    | none => .rejected (.noSuchRegister r)
  | .writeFb a b => if a < maxFrame then .instr (.hload a b) else .rejected (.noSuchByte a)
  | .readFb a => if a < maxFrame then .instr (.hreadfb a) else .rejected (.noSuchByte a)

/-- The selector an ether-type is: only 0x0800 selects (R93). -/
def decodeEtherType (v : BitVec 16) : Decoded :=
  if v = Config.etherTypeIpv4 then .instr .ethertypeIpv4 else .rejected (.unsupportedEtherType v)

/-- The selector an `ihl` is: only 5 to 15 are legal (R97). -/
def decodeIhl (ihl : Nibble) : Decoded :=
  if Config.ipMinIhl ≤ ihl.toNat then .instr (.ihlLegal ihl) else .rejected (.illegalIhl ihl)

/-- The selector an IPv4 protocol is: only 6 selects (R98). -/
def decodeProtocol (v : Byte) : Decoded :=
  if v = Config.ipProtoTcp then .instr .protocolTcp else .rejected (.unsupportedProtocol v)

/-- The selector a `data_offset` is: only 5 to 15 are legal (R102). -/
def decodeDataOffset (doff : Nibble) : Decoded :=
  if Config.tcpMinDoff ≤ doff.toNat then .instr (.dataOffsetLegal doff) else .rejected (.illegalDataOffset doff)

/-- The decoder of an instance with the given `MAX_FRAME`, which bounds indices and lengths (U7, U8, U15). `ether_type` is
big-endian (R92); the nibbles of the two header-length bytes that hold no selector are ignored (R113). -/
def decode (maxFrame : Nat) : Code → Decoded
  | .phase c => decodePhase c
  | .access a => decodeAccess maxFrame a
  | .etherTypeBytes b12 b13 => decodeEtherType (b12 ++ b13)
  | .vihlByte b => decodeIhl (ihlOf b)
  | .protocolByte b => decodeProtocol b
  | .dataOffsetByte b => decodeDataOffset (dataOffsetOf b)

/-- The encoder, from the tables R40, R92 to R102, R111 and R115. The version nibble beside `ihl` is 4 and the
reserved bits beside `data_offset` are 0; the decoder ignores both (R113; assumption log 9). -/
def encode : Instr → Code
  | .chketh => .phase 1
  | .exteth => .phase 2
  | .selip => .phase 3
  | .decihl => .phase 4
  | .extip => .phase 5
  | .seltcp => .phase 6
  | .decdoff => .phase 7
  | .exttcp => .phase 8
  | .hreset => .access .resetEvent
  | .hload a b => .access (.writeFb a b)
  | .hsetlen n => .access (.writeReg 18 n)
  | .hstart => .access (.writeReg 16 1)
  | .hread r => .access (.readReg r.number)
  | .hreadfb a => .access (.readFb a)
  | .ethertypeIpv4 => .etherTypeBytes (Config.etherTypeIpv4.extractLsb' 8 8) (Config.etherTypeIpv4.extractLsb' 0 8)
  | .ihlLegal ihl => .vihlByte (4#4 ++ ihl)
  | .protocolTcp => .protocolByte Config.ipProtoTcp
  | .dataOffsetLegal doff => .dataOffsetByte (doff ++ 0#4)

/-- The code that a table word of nbits bits is: one byte is a PHASE code in bits 3 to 0, two bytes are the ether-type
(the value's high byte at the lower frame index), three bytes are HREAD's register number. The table gives the
word 6 in one byte to two rows, SELTCP and PROTOCOL.TCP: it is read as the PHASE code (assumption log 8). -/
def codeOfTableWord (nbits w : Nat) : Option Code :=
  if nbits ≤ 8 then
    if w < 16 then some (.phase (BitVec.ofNat 4 w)) else none
  else if nbits ≤ 16 then
    if w < 65536 then some (.etherTypeBytes (BitVec.ofNat 8 (w / 256)) (BitVec.ofNat 8 (w % 256))) else none
  else if nbits ≤ 24 then some (.access (.readReg w))
  else none

/-- The instruction the decoder reads from a word of spec/opcode_table.json (the host's interface), with `MAX_FRAME` at its
default. -/
def decodeTableWord (nbits w : Nat) : Option Instr :=
  match codeOfTableWord nbits w with
  | none => none
  | some c =>
    match decode Config.maxFrame c with
    | .instr i => some i
    | .rejected _ => none

end Sys2Proof
end

