-- ==== Sys2Proof/Machine/State.lean ====
section
/-! DEFINITION. The machine's state (spec/10_state.md R20 to R55), its codes, the reasons a step can stop, and the
state after reset. -/

namespace Sys2Proof.Machine

/-- PHASE, the program counter: it names the parse operation that runs next (R40). Codes 10 to 15 are unreachable
and are no members (U9). -/
inductive Phase where
  | idle | p1 | p2 | p3 | p4 | p5 | p6 | p7 | p8 | done
deriving DecidableEq, Repr

/-- The PHASE codes (R40). -/
def Phase.code : Phase → BitVec 4
  | .idle => 0 | .p1 => 1 | .p2 => 2 | .p3 => 3 | .p4 => 4 | .p5 => 5 | .p6 => 6 | .p7 => 7 | .p8 => 8 | .done => 9

/-- DEPTH, how many layers were decoded (R33). -/
inductive Depth where
  | none | eth | ethIp | ethIpTcp
deriving DecidableEq, Repr

/-- The DEPTH codes (R33). -/
def Depth.code : Depth → BitVec 2
  | .none => 0 | .eth => 1 | .ethIp => 2 | .ethIpTcp => 3

/-- STOP_REASON, why the decode stopped (R34, R270). Codes 6 and 7 are reserved and are no members (U9). -/
inductive StopReason where
  | none
  | truncatedFrame
  | unsupportedEtherType
  | invalidOrTruncatedIpHeader
  | unsupportedIpProtocol
  | invalidOrTruncatedTcpHeader
deriving DecidableEq, Repr

/-- The STOP_REASON codes (R34, R270). -/
def StopReason.code : StopReason → BitVec 3
  | .none => 0 | .truncatedFrame => 1 | .unsupportedEtherType => 2 | .invalidOrTruncatedIpHeader => 3
  | .unsupportedIpProtocol => 4 | .invalidOrTruncatedTcpHeader => 5

/-- The result registers 0 to 14 with their widths (R21). PAY_OFF and PAY_LEN have `LEN_W` bits: numbers below 2^`LEN_W`. -/
structure Results where
  ethDst   : Mac
  ethSrc   : Mac
  ethType  : BitVec 16
  ipVihl   : Byte
  ipHlen   : HdrLen
  ipProto  : Byte
  ipSrc    : BitVec 32
  ipDst    : BitVec 32
  tcpSport : BitVec 16
  tcpDport : BitVec 16
  tcpSeq   : BitVec 32
  tcpAck   : BitVec 32
  tcpDoff  : Nibble
  payOff   : Nat
  payLen   : Nat
deriving DecidableEq, Repr

/-- Every result register 0: what reset and HSTART leave (R21). -/
def Results.zero : Results where
  ethDst := 0
  ethSrc := 0
  ethType := 0
  ipVihl := 0
  ipHlen := 0
  ipProto := 0
  ipSrc := 0
  ipDst := 0
  tcpSport := 0
  tcpDport := 0
  tcpSeq := 0
  tcpAck := 0
  tcpDoff := 0
  payOff := 0
  payLen := 0

/-- The frame buffer's written bytes (R48, R60): (index, byte) pairs, indices strictly rising. An unlisted index holds
no byte the host has written since the latest reset; what it reads as is a free value (U5). Assumption log 2. -/
abbrev Memory := List Host.Cell

/-- What the HOST does next, one line of a host script (R118). -/
inductive HostAction where
  /-- The host issues a command (R115). -/
  | issue (a : Access)
  /-- The host lets the engine take one step, if it has one (R196). -/
  | yield
  /-- HWAIT: HREAD STATUS again and again until bit 1 (DONE) reads 1 (R118). -/
  | wait
deriving DecidableEq, Repr

/-- The state: the engine's (R20), then the model's own fields. -/
structure State where
  /-- FB, the frame buffer (R48, R60). -/
  fb         : Memory
  /-- FRAME_LEN, register 18, `LEN_W` bits (R35). -/
  frameLen   : Nat
  /-- Result registers 0 to 14 (R21). -/
  regs       : Results
  /-- DEPTH, register 19 (R33). -/
  depth      : Depth
  /-- STOP_REASON, register 20 (R34). -/
  stopReason : StopReason
  /-- PHASE, the program counter (R40). -/
  phase      : Phase
  /-- W_IPHL, hidden (R45). -/
  wIphl      : HdrLen
  /-- W_TCPHL, hidden (R45). -/
  wTcphl     : HdrLen
  /-- The parameter `MAX_FRAME` (R7, U15), held here so that every statement is about all its values. No step changes it.
  Assumption log 15. -/
  maxFrame   : Nat
  /-- The parameter MAC_ORDER (R7, U14), held here so that every statement is about both its values. No step changes
  it. Assumption log 4. -/
  macOrder   : Config.MacOrder
  /-- The model's own: what the HOST does next, first line first (R8, R118). Assumption log 1. -/
  script     : List HostAction
  /-- The model's own: the values the HOST's reads returned, oldest first (R194, R195). Assumption log 1. -/
  replies    : List Nat
  /-- The model's own: how many resets there were, the index of the free bytes of FB. Assumption log 2. -/
  resets     : Nat
  /-- The model's own: how many free values reads made while BUSY have drawn. Assumption log 3. -/
  draws      : Nat
deriving DecidableEq, Repr

/-- Why the machine faults. -/
inductive Fault where
  /-- `OutOfRangeRead(addr, n)` of MemRead (spec/00_scope.md R13; R272 (a); U11). Raised by EXTETH, DECIHL, EXTIP,
  DECDOFF, EXTTCP and the selector DATA_OFFSET.LEGAL or IHL.LEGAL when a read would reach past FRAME_LEN; no
  run reaches it (R225). Safe. -/
  | outOfRangeRead (addr n : Nat)
deriving DecidableEq, Repr

/-- Why a step is refused: the spec gives the machine no step there. -/
inductive Refusal where
  /-- An instruction without a meaning; no arm of exec answers it. Safe. -/
  | notModelled (mnemonic : String)
  /-- A parse operation or selector of phase p while PHASE is another: "An operation executes only when PHASE names
  it" (spec/40_ethernet_layer.md). Raised by the parse operations and the selectors. Safe. -/
  | phaseMismatch (p : Phase)
  /-- A selector that the frame does not hold: the row does not match, so it does not apply (R110). Raised by the four
  selectors. Safe. -/
  | selectorAbsent
  /-- HLOAD while STATUS.BUSY = 1 (R191, U2). Safe. -/
  | hloadWhileBusy
  /-- HSETLEN while STATUS.BUSY = 1 (R192, U2). Safe. -/
  | hsetlenWhileBusy
  /-- HSTART while STATUS.BUSY = 1 (R193, U3). Safe. -/
  | hstartWhileBusy
  /-- HSTART with FRAME_LEN above MAX_FRAME (R193, U1). Safe. -/
  | frameLenExceedsMax
  /-- HLOAD or HREADFB of an index at or above MAX_FRAME (R191, R195, U7). Safe. -/
  | noSuchByte (a : Nat)
  /-- An access to a register number at or above 22 (R194, U8). Raised by fetch. Safe. -/
  | noSuchRegister (r : Nat)
  /-- HSETLEN of a value at or above 2^LEN_W (R192, U8). Safe. -/
  | lengthNotRepresentable (n : Nat)
  /-- PHASE is IDLE or DONE and the host does nothing: the engine has no enabled step (R196, R302). Raised by fetch.
  Safe. -/
  | noEnabledStep
deriving DecidableEq, Repr

/-- What an instruction answers. -/
abbrev Result := Host.Outcome State Fault Refusal

/-- The machine right after reset (R55, R300): every register at the spec's value, no byte of FB listed (R301), no
host script, no reply. -/
def State.reset : State where
  fb := []
  frameLen := 0
  regs := Results.zero
  depth := .none
  stopReason := .none
  phase := .idle
  wIphl := 0
  wTcphl := 0
  maxFrame := Config.maxFrame
  macOrder := .dstFirst
  script := []
  replies := []
  resets := 0
  draws := 0

end Sys2Proof.Machine
end

