-- ==== Sys2Proof/Machine/Operands.lean ====
section
/-! DEFINITION. How operands are read from the frame buffer: bytes, big-endian values, header positions
(spec/00_scope.md R12, R13; spec/20_memory.md R60 to R67; spec/30_encoding.md R92 to R105). -/

namespace Sys2Proof.Machine

/-- `LEN`, the value of FRAME_LEN, the source's `len(raw)` (R12). -/
def State.len (s : State) : Nat := s.frameLen

/-- `LEN_W` of the instance (R7, U15). -/
def State.lenW (s : State) : Nat := Config.lenWOf s.maxFrame

/-- The byte the host wrote at an index since the latest reset, if it wrote one. -/
def Memory.lookup : Memory → Nat → Option Byte
  | [], _ => none
  | (k, v) :: m, a => if k = a then some v else Memory.lookup m a

/-- `FB[a]`: the byte the host wrote there, else a free value, fixed until written (R12, R63, U5). -/
def State.byte (s : State) (a : Nat) : Byte := (Memory.lookup s.fb a).getD (Config.freeByte s.resets a)

/-- `be16(a) = FB[a] ++ FB[a+1]`, the lowest index most significant (R13, R64). -/
def be16 (fb : Nat → Byte) (a : Nat) : BitVec 16 := fb a ++ fb (a + 1)

/-- `be32(a)` (R13, R64). -/
def be32 (fb : Nat → Byte) (a : Nat) : BitVec 32 := fb a ++ fb (a + 1) ++ fb (a + 2) ++ fb (a + 3)

/-- `be48(a)`, the value of a MAC register (R13, R23). -/
def be48 (fb : Nat → Byte) (a : Nat) : BitVec 48 :=
  fb a ++ fb (a + 1) ++ fb (a + 2) ++ fb (a + 3) ++ fb (a + 4) ++ fb (a + 5)

/-- The guard of `MemRead(addr, n)`: its precondition is addr + n ≤ LEN, and a call that breaks it raises
OutOfRangeRead(addr, n) (R13). -/
def guardRead {α : Type} (addr n : Nat) (s : State) (v : α) : Except Fault α :=
  if addr + n ≤ s.len then .ok v else .error (.outOfRangeRead addr n)

/-- `MemRead(addr, 1)` (R13). -/
def memRead8 (addr : Nat) (s : State) : Except Fault Byte := guardRead addr 1 s (s.byte addr)

/-- `MemRead(addr, 2)` (R13). -/
def memRead16 (addr : Nat) (s : State) : Except Fault (BitVec 16) := guardRead addr 2 s (be16 s.byte addr)

/-- `MemRead(addr, 4)` (R13). -/
def memRead32 (addr : Nat) (s : State) : Except Fault (BitVec 32) := guardRead addr 4 s (be32 s.byte addr)

/-- `MemRead(addr, 6)` (R13). -/
def memRead48 (addr : Nat) (s : State) : Except Fault (BitVec 48) := guardRead addr 6 s (be48 s.byte addr)

/-- `L3`, where the IPv4 header starts (R42, R90). -/
abbrev l3 : Nat := Config.ethHlen

/-- `L4 = ETH_HLEN + W_IPHL`, where the TCP header starts (R42, R90), over the naturals (R11, R220). -/
def State.l4 (s : State) : Nat := l3 + s.wIphl.toNat

/-- Frame index of `protocol`: IPv4 header byte 9 (R95). -/
abbrev ipProtoAt : Nat := l3 + 9

/-- Frame index of `source_addr`: IPv4 header bytes 12 to 15 (R95). -/
abbrev ipSrcAt : Nat := l3 + 12

/-- Frame index of `dest_addr`: IPv4 header bytes 16 to 19 (R95). -/
abbrev ipDstAt : Nat := l3 + 16

/-- The first of two MAC fields in the frame, or the second: which one the destination address is (R92, R131). -/
def dstMacOf (o : Config.MacOrder) (first second : Mac) : Mac :=
  match o with
  | .dstFirst => first
  | .srcFirst => second

/-- Which of the two MAC fields the source address is (R92, R131). -/
def srcMacOf (o : Config.MacOrder) (first second : Mac) : Mac :=
  match o with
  | .dstFirst => second
  | .srcFirst => first

/-- `TCP_DOFF = W_TCPHL[5:2]`, the data_offset nibble (R105, R171). -/
def doffOfHdrLen (w : HdrLen) : Nibble := w.extractLsb' 2 4

/-- The frame bytes [addr, addr + n) that each instruction reads, one pair (addr, n) for each MemRead, in order
(R67). The host's HREADFB is not bounded by FRAME_LEN and is not in the table. -/
def readsOf : Instr → State → List (Nat × Nat)
  | .exteth, _ => [(0, 6), (6, 6), (12, 2)]
  | .decihl, _ | .ihlLegal _, _ => [(l3, 1)]
  | .extip, _ => [(l3, 1), (ipProtoAt, 1), (ipSrcAt, 4), (ipDstAt, 4)]
  | .decdoff, s | .dataOffsetLegal _, s => [(s.l4 + 12, 1)]
  | .exttcp, s => [(s.l4, 2), (s.l4 + 2, 2), (s.l4 + 4, 4), (s.l4 + 8, 4)]
  | .chketh, _ | .selip, _ | .seltcp, _ | .ethertypeIpv4, _ | .protocolTcp, _ => []
  | .hreset, _ | .hload _ _, _ | .hsetlen _, _ | .hstart, _ | .hread _, _ | .hreadfb _, _ => []

/-- The phase in which a parse operation or a selector runs (R40, R110); a host command runs in none of its own. -/
def phaseOf : Instr → Option Phase
  | .chketh => some .p1
  | .exteth => some .p2
  | .selip | .ethertypeIpv4 => some .p3
  | .decihl | .ihlLegal _ => some .p4
  | .extip => some .p5
  | .seltcp | .protocolTcp => some .p6
  | .decdoff | .dataOffsetLegal _ => some .p7
  | .exttcp => some .p8
  | .hreset | .hload _ _ | .hsetlen _ | .hstart | .hread _ | .hreadfb _ => none

end Sys2Proof.Machine
end

