-- ==== Sys2Proof/Machine/Flags.lean ====
section
/-! DEFINITION. STATUS and FLAGS, views that hold no state of their own (spec/10_state.md R32, R36). -/

namespace Sys2Proof.Machine

/-- PHASE is one of P1..P8 (R32). -/
def Phase.isBusy : Phase → Bool
  | .p1 | .p2 | .p3 | .p4 | .p5 | .p6 | .p7 | .p8 => true
  | .idle | .done => false

/-- PHASE is DONE (R32). -/
def Phase.isDone : Phase → Bool
  | .done => true
  | .idle | .p1 | .p2 | .p3 | .p4 | .p5 | .p6 | .p7 | .p8 => false

/-- STATUS.BUSY (R32). -/
def State.busy (s : State) : Bool := s.phase.isBusy

/-- STATUS.DONE (R32). -/
def State.isDone (s : State) : Bool := s.phase.isDone

/-- STATUS: bit 0 BUSY, bit 1 DONE (R32). -/
def State.status (s : State) : BitVec 2 := BitVec.ofBool s.isDone ++ BitVec.ofBool s.busy

/-- FLAGS.ETH_V = (DEPTH ≥ 1) (R36). -/
def State.ethV (s : State) : Bool := decide (1 ≤ s.depth.code.toNat)

/-- FLAGS.IP_V = (DEPTH ≥ 2) (R36). -/
def State.ipV (s : State) : Bool := decide (2 ≤ s.depth.code.toNat)

/-- FLAGS.TCP_V = (DEPTH = 3) (R36). -/
def State.tcpV (s : State) : Bool := decide (s.depth.code.toNat = 3)

/-- FLAGS.PAY_NE = (DEPTH = 3 and PAY_LEN > 0) (R36). -/
def State.payNe (s : State) : Bool := s.tcpV && decide (0 < s.regs.payLen)

/-- FLAGS: bit 3 PAY_NE, bit 2 TCP_V, bit 1 IP_V, bit 0 ETH_V (R36). -/
def State.flags (s : State) : BitVec 4 :=
  BitVec.ofBool s.payNe ++ BitVec.ofBool s.tcpV ++ BitVec.ofBool s.ipV ++ BitVec.ofBool s.ethV

end Sys2Proof.Machine
end

