-- ==== Sys2Proof/Machine/Ops.lean ====
section
/-! DEFINITION. The shared operations: the one write of the frame buffer, reads of registers, the stop of a decode (the
only exception this hardware has, spec/60_exceptions.md) and the clearing that ends it. -/

namespace Sys2Proof.Machine

/-- Writes one byte; the list keeps its rising order and holds one entry for an index. -/
def Memory.write : Memory → Nat → Byte → Memory
  | [], a, b => [(a, b)]
  | (k, v) :: m, a, b =>
    if a < k then (a, b) :: (k, v) :: m
    else if a = k then (a, b) :: m
    else (k, v) :: Memory.write m a b

/-- Indices strictly rising from a lower bound on. -/
def Memory.risingFrom : Nat → Memory → Bool
  | _, [] => true
  | lo, (k, _) :: m => decide (lo ≤ k) && Memory.risingFrom (k + 1) m

/-- The canonical form of the frame buffer: indices strictly rising and below its size, `MAX_FRAME`
(R60). An unlisted index reads
as no byte of the list, so no entry can repeat it. -/
def Memory.wf (size : Nat) (m : Memory) : Bool :=
  Memory.risingFrom 0 m && m.all (fun c => decide (c.1 < size))

/-- `MemWrite(a, 1, b)`: FB[a] <- b (R13, R191). -/
def memWrite (a : Nat) (b : Byte) (s : State) : State := { s with fb := Memory.write s.fb a b }

/-- `raise Stop(reason)`: STOP_REASON <- reason, PHASE <- DONE, every other register as it is (R15, R271). There is no
trap entry: no saved state, no mode, no handler (R283). -/
def raiseStop (r : StopReason) (s : State) : State := { s with stopReason := r, phase := .done }

/-- What HSTART does before P1 runs: result registers, DEPTH, STOP_REASON, W_IPHL and W_TCPHL cleared, PHASE at P1 (R193).
There is no trap return; this is what ends a stop (R285). -/
def beginDecode (s : State) : State :=
  { s with regs := Results.zero, depth := .none, stopReason := .none, wIphl := 0, wTcphl := 0, phase := .p1 }

/-- The reset event (R300): every register at its reset value and every byte of FB unspecified anew. The parameters and
the HOST's own fields stay. -/
def resetEngine (s : State) : State :=
  { State.reset with
    maxFrame := s.maxFrame, macOrder := s.macOrder, script := s.script, replies := s.replies, resets := s.resets + 1
    draws := s.draws }

/-- Runs what an operation of phase p does, only when PHASE names p (R40; spec/40_ethernet_layer.md, template). -/
def whenPhase (p : Phase) (s : State) (r : Except Fault State) : Result :=
  if s.phase = p then
    match r with
    | .ok t => .next t
    | .error f => .fault f
  else .refused (.phaseMismatch p)

/-- Runs what a selector of phase p does, only when PHASE names p and the tested value is the selector's (R110). -/
def whenSelected (p : Phase) (s : State) (present : Except Fault Bool) (t : State) : Result :=
  if s.phase = p then
    match present with
    | .ok true => .next t
    | .ok false => .refused .selectorAbsent
    | .error f => .fault f
  else .refused (.phaseMismatch p)

/-- The width of a register, in an instance with the given `MAX_FRAME` (R21, R30, U15). -/
def regWidth (maxFrame : Nat) : Reg → Nat
  | .ethDst | .ethSrc => 48
  | .ethType => 16
  | .ipVihl => 8
  | .ipHlen => 6
  | .ipProto => 8
  | .ipSrc | .ipDst => 32
  | .tcpSport | .tcpDport => 16
  | .tcpSeq | .tcpAck => 32
  | .tcpDoff => 4
  | .payOff | .payLen => Config.lenWOf maxFrame
  | .reserved15 => 0
  | .ctrl => 1
  | .status => 2
  | .frameLen => Config.lenWOf maxFrame
  | .depth => 2
  | .stopReason => 3
  | .flags => 4

/-- `x[r]` as a number; CTRL and register 15 read 0 (R21, R30, R31, R194). -/
def readReg (r : Reg) (s : State) : Nat :=
  match r with
  | .ethDst => s.regs.ethDst.toNat
  | .ethSrc => s.regs.ethSrc.toNat
  | .ethType => s.regs.ethType.toNat
  | .ipVihl => s.regs.ipVihl.toNat
  | .ipHlen => s.regs.ipHlen.toNat
  | .ipProto => s.regs.ipProto.toNat
  | .ipSrc => s.regs.ipSrc.toNat
  | .ipDst => s.regs.ipDst.toNat
  | .tcpSport => s.regs.tcpSport.toNat
  | .tcpDport => s.regs.tcpDport.toNat
  | .tcpSeq => s.regs.tcpSeq.toNat
  | .tcpAck => s.regs.tcpAck.toNat
  | .tcpDoff => s.regs.tcpDoff.toNat
  | .payOff => s.regs.payOff
  | .payLen => s.regs.payLen
  | .reserved15 => 0
  | .ctrl => 0
  | .status => s.status.toNat
  | .frameLen => s.frameLen
  | .depth => s.depth.code.toNat
  | .stopReason => s.stopReason.code.toNat
  | .flags => s.flags.toNat

/-- The registers whose reads return `any value` while STATUS.BUSY = 1: the result registers, DEPTH, STOP_REASON and
FLAGS (R22, R194, U4). -/
def freeWhileBusy : Reg → Bool
  | .ethDst | .ethSrc | .ethType | .ipVihl | .ipHlen | .ipProto | .ipSrc | .ipDst => true
  | .tcpSport | .tcpDport | .tcpSeq | .tcpAck | .tcpDoff | .payOff | .payLen => true
  | .depth | .stopReason | .flags => true
  | .reserved15 | .ctrl | .status | .frameLen => false

/-- The free value such a read returns: any value of the register's width (U4). -/
def freeReading (maxFrame : Nat) (r : Reg) (draw : Nat) : Nat := Config.freeRead draw % 2 ^ regWidth maxFrame r

/-- A read returns a value to the HOST and has no other effect on the engine (R194, R195). -/
def reply (v : Nat) (s : State) : State := { s with replies := s.replies ++ [v] }

end Sys2Proof.Machine
end

