-- ==== Sys2Proof/Machine/Ethernet.lean ====
section
/-! DEFINITION. The Ethernet layer (spec/40_ethernet_layer.md): P1 CHKETH, P2 EXTETH, P3 SELIP, and the selector
ETHERTYPE.IPV4. -/

namespace Sys2Proof.Machine

/-- P1: does an Ethernet header fit? (R130) -/
def checkEth (s : State) : State :=
  if s.len < Config.ethHlen then raiseStop .truncatedFrame s else { s with phase := .p2 }

/-- P1 CHKETH (R130). -/
def execChketh (s : State) : Result := whenPhase .p1 s (.ok (checkEth s))

/-- What P2 writes, from the two MAC fields in frame order and the ether-type (R131). -/
def putEth (first second : Mac) (ty : BitVec 16) (s : State) : State :=
  { s with
    regs := { s.regs with
      ethDst := dstMacOf s.macOrder first second, ethSrc := srcMacOf s.macOrder first second, ethType := ty }
    depth := .eth
    phase := .p3 }

/-- P2 EXTETH (R131). -/
def execExteth (s : State) : Result :=
  whenPhase .p2 s do
    let first ← memRead48 0 s
    let second ← memRead48 6 s
    let ty ← memRead16 12 s
    return putEth first second ty s

/-- P3 once the ether-type is 0x0800: does a minimum IPv4 header fit? (R132) -/
def acceptIpv4 (s : State) : State :=
  if s.len < Config.ethHlen + Config.ipMinHlen then raiseStop .invalidOrTruncatedIpHeader s
  else { s with phase := .p4 }

/-- P3: the selector test before the length test (R132, R280). -/
def selectIp (s : State) : State :=
  if s.regs.ethType = Config.etherTypeIpv4 then acceptIpv4 s else raiseStop .unsupportedEtherType s

/-- P3 SELIP (R132). -/
def execSelip (s : State) : Result := whenPhase .p3 s (.ok (selectIp s))

/-- ETHERTYPE.IPV4: P3 met the value 0x0800 (R93, R110). -/
def execEthertypeIpv4 (s : State) : Result :=
  whenSelected .p3 s (.ok (decide (s.regs.ethType = Config.etherTypeIpv4))) (acceptIpv4 s)

end Sys2Proof.Machine
end

