-- ==== Sys2Proof/Machine/HostCommands.lean ====
section
/-! DEFINITION. The host commands (spec/43_host_commands.md): HRESET, HLOAD, HSETLEN, HSTART, HREAD, HREADFB. A command
whose precondition fails is refused: the spec gives the machine no step for it. -/

namespace Sys2Proof.Machine

/-- HRESET, allowed in every phase (R190, R300). -/
def execHreset (s : State) : Result := .next (resetEngine s)

/-- HLOAD a, b (R191). -/
def execHload (a : Nat) (b : Byte) (s : State) : Result :=
  if s.busy then .refused .hloadWhileBusy
  else if a < s.maxFrame then .next (memWrite a b s)
  else .refused (.noSuchByte a)

/-- HSETLEN n (R192). -/
def execHsetlen (n : Nat) (s : State) : Result :=
  if s.busy then .refused .hsetlenWhileBusy
  else if n < 2 ^ s.lenW then .next { s with frameLen := n }
  else .refused (.lengthNotRepresentable n)

/-- HSTART (R193). -/
def execHstart (s : State) : Result :=
  if s.busy then .refused .hstartWhileBusy
  else if s.len ≤ s.maxFrame then .next (beginDecode s)
  else .refused .frameLenExceedsMax

/-- HREAD r (R194): the register's value, or any value of its width where the register is not readable while BUSY (U4). -/
def execHread (r : Reg) (s : State) : Result :=
  .next (if s.busy && freeWhileBusy r then { reply (freeReading s.maxFrame r s.draws) s with draws := s.draws + 1 }
    else reply (readReg r s) s)

/-- HREADFB a (R195), allowed in every phase. -/
def execHreadfb (a : Nat) (s : State) : Result :=
  if a < s.maxFrame then .next (reply (s.byte a).toNat s) else .refused (.noSuchByte a)

end Sys2Proof.Machine
end

