-- ==== Sys2Proof/Machine/Ipv4.lean ====
section
/-! DEFINITION. The IPv4 layer (spec/41_ipv4_layer.md): P4 DECIHL, P5 EXTIP, P6 SELTCP, and the selectors IHL.LEGAL and
PROTOCOL.TCP. -/

namespace Sys2Proof.Machine

/-- P4 once the `ihl` nibble is read: its two checks, and W_IPHL only when both pass (R150). -/
def acceptIhl (ihl : Nibble) (s : State) : State :=
  if (hdrLenOf ihl).toNat < Config.ipMinHlen then raiseStop .invalidOrTruncatedIpHeader s
  else if l3 + (hdrLenOf ihl).toNat > s.len then raiseStop .invalidOrTruncatedIpHeader s
  else { s with wIphl := hdrLenOf ihl, phase := .p5 }

/-- P4 DECIHL (R150). -/
def execDecihl (s : State) : Result :=
  whenPhase .p4 s do
    let b ← memRead8 l3 s
    return acceptIhl (ihlOf b) s

/-- IHL.LEGAL: P4 met the nibble `ihl` in frame byte 14 (R97, R110). -/
def execIhlLegal (ihl : Nibble) (s : State) : Result :=
  whenSelected .p4 s (do let b ← memRead8 l3 s; return decide (ihlOf b = ihl)) (acceptIhl ihl s)

/-- What P5 writes (R151). -/
def putIp (vihl proto : Byte) (src dst : BitVec 32) (s : State) : State :=
  { s with
    regs := { s.regs with ipVihl := vihl, ipHlen := s.wIphl, ipProto := proto, ipSrc := src, ipDst := dst }
    depth := .ethIp
    phase := .p6 }

/-- P5 EXTIP (R151). -/
def execExtip (s : State) : Result :=
  whenPhase .p5 s do
    let vihl ← memRead8 l3 s
    let proto ← memRead8 ipProtoAt s
    let src ← memRead32 ipSrcAt s
    let dst ← memRead32 ipDstAt s
    return putIp vihl proto src dst s

/-- P6 once the protocol is 6: does a minimum TCP header fit? (R152) -/
def acceptTcp (s : State) : State :=
  if s.l4 + Config.tcpMinHlen > s.len then raiseStop .invalidOrTruncatedTcpHeader s
  else { s with phase := .p7 }

/-- P6: the selector test before the length test (R152, R280). -/
def selectTcp (s : State) : State :=
  if s.regs.ipProto = Config.ipProtoTcp then acceptTcp s else raiseStop .unsupportedIpProtocol s

/-- P6 SELTCP (R152). -/
def execSeltcp (s : State) : Result := whenPhase .p6 s (.ok (selectTcp s))

/-- PROTOCOL.TCP: P6 met the value 6 (R98, R110). -/
def execProtocolTcp (s : State) : Result :=
  whenSelected .p6 s (.ok (decide (s.regs.ipProto = Config.ipProtoTcp))) (acceptTcp s)

end Sys2Proof.Machine
end

