-- ==== Sys2Proof/Machine/Tcp.lean ====
section
/-! DEFINITION. The TCP layer (spec/42_tcp_layer.md): P7 DECDOFF, P8 EXTTCP, and the selector DATA_OFFSET.LEGAL. -/

namespace Sys2Proof.Machine

/-- P7 once the `data_offset` nibble is read: its two checks, and W_TCPHL only when both pass (R170). -/
def acceptDoff (doff : Nibble) (s : State) : State :=
  if (hdrLenOf doff).toNat < Config.tcpMinHlen then raiseStop .invalidOrTruncatedTcpHeader s
  else if s.l4 + (hdrLenOf doff).toNat > s.len then raiseStop .invalidOrTruncatedTcpHeader s
  else { s with wTcphl := hdrLenOf doff, phase := .p8 }

/-- P7 DECDOFF (R170). -/
def execDecdoff (s : State) : Result :=
  whenPhase .p7 s do
    let b ← memRead8 (s.l4 + 12) s
    return acceptDoff (dataOffsetOf b) s

/-- DATA_OFFSET.LEGAL: P7 met the nibble `doff` in frame byte L4+12 (R102, R110). -/
def execDataOffsetLegal (doff : Nibble) (s : State) : Result :=
  whenSelected .p7 s (do let b ← memRead8 (s.l4 + 12) s; return decide (dataOffsetOf b = doff)) (acceptDoff doff s)

/-- What P8 writes (R171), over the natural numbers (R11). PAY_OFF is at most LEN where P7 passed (R220), so nothing is
lost; elsewhere the difference is 0 (assumption log 6). -/
def putTcp (sport dport : BitVec 16) (seq ack : BitVec 32) (s : State) : State :=
  { s with
    regs := { s.regs with
      tcpSport := sport, tcpDport := dport, tcpSeq := seq, tcpAck := ack
      tcpDoff := doffOfHdrLen s.wTcphl
      payOff := s.l4 + s.wTcphl.toNat
      payLen := s.len - (s.l4 + s.wTcphl.toNat) }
    depth := .ethIpTcp
    stopReason := .none
    phase := .done }

/-- P8 EXTTCP (R171). -/
def execExttcp (s : State) : Result :=
  whenPhase .p8 s do
    let sport ← memRead16 s.l4 s
    let dport ← memRead16 (s.l4 + 2) s
    let seq ← memRead32 (s.l4 + 4) s
    let ack ← memRead32 (s.l4 + 8) s
    return putTcp sport dport seq ack s

end Sys2Proof.Machine
end

