-- ==== Sys2Proof/Machine/Dispatch.lean ====
section
/-! DEFINITION. One arm per instruction. -/

namespace Sys2Proof.Machine

def exec (i : Instr) (s : State) : Host.Outcome State Fault Refusal :=
  match i with
  | .chketh => Sys2Proof.Machine.execChketh s
  | .exteth => Sys2Proof.Machine.execExteth s
  | .selip => Sys2Proof.Machine.execSelip s
  | .decihl => Sys2Proof.Machine.execDecihl s
  | .extip => Sys2Proof.Machine.execExtip s
  | .seltcp => Sys2Proof.Machine.execSeltcp s
  | .decdoff => Sys2Proof.Machine.execDecdoff s
  | .exttcp => Sys2Proof.Machine.execExttcp s
  | .hreset => Sys2Proof.Machine.execHreset s
  | .hload a b => Sys2Proof.Machine.execHload a b s
  | .hsetlen n => Sys2Proof.Machine.execHsetlen n s
  | .hstart => Sys2Proof.Machine.execHstart s
  | .hread r => Sys2Proof.Machine.execHread r s
  | .hreadfb a => Sys2Proof.Machine.execHreadfb a s
  | .ethertypeIpv4 => Sys2Proof.Machine.execEthertypeIpv4 s
  | .ihlLegal ihl => Sys2Proof.Machine.execIhlLegal ihl s
  | .protocolTcp => Sys2Proof.Machine.execProtocolTcp s
  | .dataOffsetLegal doff => Sys2Proof.Machine.execDataOffsetLegal doff s

end Sys2Proof.Machine
end

