-- ==== Sys2Proof/Machine/Fetch.lean ====
section
/-! DEFINITION. Whose turn it is and which instruction runs (spec/43_host_commands.md R196; spec/00_scope.md R8): the HOST's
next script line, or the parse operation PHASE names; and how the host of this model places a word there. -/

namespace Sys2Proof.Machine

/-- What a step does. -/
inductive Fetched where
  /-- Runs instruction i from state s. -/
  | run (i : Instr) (s : State)
  /-- Goes on to s: a write that is no command does nothing (U10), or the host waited while the engine had no step. -/
  | pass (s : State)
  /-- The spec gives the machine no step. -/
  | stop (r : Refusal)
deriving DecidableEq, Repr

/-- The engine's step: the operation PHASE names; in IDLE and DONE it has none (R196). -/
def fetchEngine (s : State) : Fetched :=
  match decode s.maxFrame (.phase s.phase.code) with
  | .instr i => .run i s
  | .rejected _ => .stop .noEnabledStep

/-- A host access: the command it is, nothing at all for a write that is no command (U10), and no step for a register,
byte or length that does not exist (U7, U8). -/
def fetchAccess (a : Access) (s : State) : Fetched :=
  match decode s.maxFrame (.access a) with
  | .instr i => .run i s
  | .rejected .noCommand => .pass s
  | .rejected (.noSuchRegister r) => .stop (.noSuchRegister r)
  | .rejected (.noSuchByte i) => .stop (.noSuchByte i)
  | .rejected (.lengthNotRepresentable n) => .stop (.lengthNotRepresentable n)
  | .rejected _ => .stop .noEnabledStep

/-- The next step: the HOST's line if it has one, else the engine's operation. HWAIT reads STATUS and, until DONE reads
1, lets the engine step before it reads again (R118, R196). Assumption log 1. -/
def fetch (s : State) : Fetched :=
  match s.script with
  | [] => fetchEngine s
  | .issue a :: rest => fetchAccess a { s with script := rest }
  | .yield :: rest => if s.busy then fetchEngine { s with script := rest } else .pass { s with script := rest }
  | .wait :: rest => .run (.hread .status) { s with script := if s.isDone then rest else .yield :: .wait :: rest }

/-- The phase a PHASE code names, and the least FRAME_LEN at which the engine can be there (R40, R114). -/
def phaseOfCode (c : BitVec 4) : Option (Phase × Nat) :=
  match c.toNat with
  | 1 => some (.p1, 0)
  | 2 => some (.p2, Config.ethHlen)
  | 3 => some (.p3, Config.ethHlen)
  | 4 => some (.p4, Config.ethHlen + Config.ipMinHlen)
  | 5 => some (.p5, Config.ethHlen + Config.ipMinHlen)
  | 6 => some (.p6, Config.ethHlen + Config.ipMinHlen)
  | 7 => some (.p7, Config.ethHlen + Config.ipMinHlen + Config.tcpMinHlen)
  | 8 => some (.p8, Config.ethHlen + Config.ipMinHlen + Config.tcpMinHlen)
  | _ => none

/-- FRAME_LEN raised to n where it is less. -/
def atLeastLen (n : Nat) (s : State) : State :=
  if s.len < n then { s with frameLen := n } else s

/-- Places a code where the next step fetches: a PHASE code in PHASE, with the frame long enough for the engine to be
there, and the engine's turn next; a host access as the host's next line; the ether-type in frame bytes 12 and 13 and,
as P2 leaves it, in ETH_TYPE, with PHASE at P3. Other selector bytes have no table word. Assumption log 7. -/
def placeCode (c : Code) (s : State) : State :=
  match c with
  | .phase k =>
    match phaseOfCode k with
    | some (p, n) => atLeastLen n { s with phase := p, script := .yield :: s.script }
    | none => s
  | .access a => { s with script := .issue a :: s.script }
  | .etherTypeBytes b12 b13 =>
    atLeastLen Config.ethHlen { memWrite 13 b13 (memWrite 12 b12 s) with
      regs := { s.regs with ethType := b12 ++ b13 }, phase := .p3, script := .yield :: s.script }
  | .vihlByte _ | .protocolByte _ | .dataOffsetByte _ => s

end Sys2Proof.Machine
end

