-- ==== Sys2Proof/Machine/Step.lean ====
section
/-! DEFINITION. One step of the machine: what fetch chose, through exec. -/

namespace Sys2Proof.Machine

/-- One step (spec/43_host_commands.md R196). -/
def step (s : State) : Host.Outcome State Fault Refusal :=
  match fetch s with
  | .run i t => exec i t
  | .pass t => .next t
  | .stop r => .refused r

/-- s with the table word w of nbits bits placed where step fetches its next instruction. -/
def State.withFetchWord (s : State) (nbits w : Nat) : State :=
  match codeOfTableWord nbits w with
  | some c => placeCode c s
  | none => s

end Sys2Proof.Machine
end

