-- ==== Sys2Proof/Machine/Reference.lean ====
section
/-! DEFINITION. The whole decode as one pure function (spec/44_decode_function.md R210), the result as a sum type (R212),
the bytes it reads (R227) and the operations it takes (spec/70_reset_and_hazards.md R310). Written from R210, not from
the operations: that the two agree is a statement (R211). -/

namespace Sys2Proof.Machine

/-- What a decode returns: DEPTH, STOP_REASON and result registers 0 to 14 (R210). -/
structure DecodeRecord where
  depth      : Depth
  stopReason : StopReason
  regs       : Results
deriving DecidableEq, Repr

/-- The record a state holds. -/
def State.record (s : State) : DecodeRecord := ⟨s.depth, s.stopReason, s.regs⟩

/-- The record of an operation that has not run: depth NONE, every register 0 (R210). -/
def DecodeRecord.start : DecodeRecord := ⟨.none, .none, Results.zero⟩

/-- Ends a decode early with a reason (R210: `return R[STOP_REASON := ...]`). -/
def DecodeRecord.stoppedBy (r : DecodeRecord) (why : StopReason) : DecodeRecord := { r with stopReason := why }

/-- `hl = 4 * u8(14)[3:0]` (R210, step 4). -/
def ipHdrLen (fb : Nat → Byte) : Nat := 4 * (ihlOf (fb l3)).toNat

/-- `tl = 4 * u8(L4 + 12)[7:4]` with L4 = 14 + hl (R210, step 7). -/
def tcpHdrLen (fb : Nat → Byte) : Nat := 4 * (dataOffsetOf (fb (l3 + ipHdrLen fb + 12))).toNat

/-- R after step 2 (R210). -/
def recordEth (o : Config.MacOrder) (fb : Nat → Byte) : DecodeRecord :=
  { DecodeRecord.start with
    depth := .eth
    regs := { Results.zero with
      ethDst := dstMacOf o (be48 fb 0) (be48 fb 6), ethSrc := srcMacOf o (be48 fb 0) (be48 fb 6), ethType := be16 fb 12 } }

/-- R after step 5 (R210). -/
def recordIp (o : Config.MacOrder) (fb : Nat → Byte) : DecodeRecord :=
  { recordEth o fb with
    depth := .ethIp
    regs := { (recordEth o fb).regs with
      ipVihl := fb l3, ipHlen := BitVec.ofNat 6 (ipHdrLen fb), ipProto := fb ipProtoAt, ipSrc := be32 fb ipSrcAt
      ipDst := be32 fb ipDstAt } }

/-- R after step 8 (R210). -/
def recordTcp (o : Config.MacOrder) (fb : Nat → Byte) (len : Nat) : DecodeRecord :=
  let l4 := l3 + ipHdrLen fb
  { recordIp o fb with
    depth := .ethIpTcp
    regs := { (recordIp o fb).regs with
      tcpSport := be16 fb l4, tcpDport := be16 fb (l4 + 2), tcpSeq := be32 fb (l4 + 4), tcpAck := be32 fb (l4 + 8)
      tcpDoff := BitVec.ofNat 4 (tcpHdrLen fb / 4)
      payOff := l4 + tcpHdrLen fb
      payLen := len - (l4 + tcpHdrLen fb) } }

/-- `decode(FB, LEN)` (R210). -/
def decodeFrame (o : Config.MacOrder) (fb : Nat → Byte) (len : Nat) : DecodeRecord :=
  if len < Config.ethHlen then DecodeRecord.start.stoppedBy .truncatedFrame
  else if be16 fb 12 ≠ Config.etherTypeIpv4 then (recordEth o fb).stoppedBy .unsupportedEtherType
  else if len < Config.ethHlen + Config.ipMinHlen then (recordEth o fb).stoppedBy .invalidOrTruncatedIpHeader
  else if ipHdrLen fb < Config.ipMinHlen ∨ l3 + ipHdrLen fb > len then (recordEth o fb).stoppedBy .invalidOrTruncatedIpHeader
  else if fb ipProtoAt ≠ Config.ipProtoTcp then (recordIp o fb).stoppedBy .unsupportedIpProtocol
  else if l3 + ipHdrLen fb + Config.tcpMinHlen > len then (recordIp o fb).stoppedBy .invalidOrTruncatedTcpHeader
  else if tcpHdrLen fb < Config.tcpMinHlen ∨ l3 + ipHdrLen fb + tcpHdrLen fb > len then
    (recordIp o fb).stoppedBy .invalidOrTruncatedTcpHeader
  else recordTcp o fb len

/-- How many parse operations a decode takes: the table of R310. -/
def decodeOps (fb : Nat → Byte) (len : Nat) : Nat :=
  if len < Config.ethHlen then 1
  else if be16 fb 12 ≠ Config.etherTypeIpv4 ∨ len < Config.ethHlen + Config.ipMinHlen then 3
  else if ipHdrLen fb < Config.ipMinHlen ∨ l3 + ipHdrLen fb > len then 4
  else if fb ipProtoAt ≠ Config.ipProtoTcp ∨ l3 + ipHdrLen fb + Config.tcpMinHlen > len then 6
  else if tcpHdrLen fb < Config.tcpMinHlen ∨ l3 + ipHdrLen fb + tcpHdrLen fb > len then 7
  else 8

/-- The frame indices a decode reads, each once (R227): [0,14); byte 14 if it passes P3; bytes 23 and [26,34) if it passes
P4; byte L4+12 if it passes P6; [L4, L4+12) if it passes P7. -/
def decodeReads (fb : Nat → Byte) (len : Nat) : List Nat :=
  let l4 := l3 + ipHdrLen fb
  let eth := List.range Config.ethHlen
  let ip := eth ++ [l3, ipProtoAt] ++ List.range' ipSrcAt 8
  if len < Config.ethHlen then []
  else if be16 fb 12 ≠ Config.etherTypeIpv4 ∨ len < Config.ethHlen + Config.ipMinHlen then eth
  else if ipHdrLen fb < Config.ipMinHlen ∨ l4 > len then eth ++ [l3]
  else if fb ipProtoAt ≠ Config.ipProtoTcp ∨ l4 + Config.tcpMinHlen > len then ip
  else if tcpHdrLen fb < Config.tcpMinHlen ∨ l4 + tcpHdrLen fb > len then ip ++ [l4 + 12]
  else ip ++ [l4 + 12] ++ List.range' l4 12

/-- The Ethernet layer of a result (R212). -/
structure EthernetHeader where
  destMac   : Mac
  sourceMac : Mac
  etherType : BitVec 16
deriving DecidableEq, Repr

/-- The IPv4 layer of a result (R212). -/
structure Ipv4Header where
  versionAndIhl : Byte
  headerLen     : HdrLen
  protocol      : Byte
  sourceAddr    : BitVec 32
  destAddr      : BitVec 32
deriving DecidableEq, Repr

/-- The TCP layer of a result (R212). -/
structure TcpHeader where
  sourcePort : BitVec 16
  destPort   : BitVec 16
  seqNum     : BitVec 32
  ackNum     : BitVec 32
  dataOffset : Nibble
deriving DecidableEq, Repr

/-- The DecodedFrame (R212): the sum type, four variants. -/
inductive DecodedFrame where
  | tooShort
  | ethernetOnly (eth : EthernetHeader)
  | withIpv4 (eth : EthernetHeader) (ip : Ipv4Header)
  | withIpv4Tcp (eth : EthernetHeader) (ip : Ipv4Header) (tcp : TcpHeader) (payloadOff payloadLen : Nat)
deriving DecidableEq, Repr

/-- The Ethernet layer from registers 0 to 2 (R212). -/
def Results.eth (r : Results) : EthernetHeader := ⟨r.ethDst, r.ethSrc, r.ethType⟩

/-- The IPv4 layer from registers 3 to 7 (R212). -/
def Results.ip (r : Results) : Ipv4Header := ⟨r.ipVihl, r.ipHlen, r.ipProto, r.ipSrc, r.ipDst⟩

/-- The TCP layer from registers 8 to 12 (R212). -/
def Results.tcp (r : Results) : TcpHeader := ⟨r.tcpSport, r.tcpDport, r.tcpSeq, r.tcpAck, r.tcpDoff⟩

/-- The register record as a DecodedFrame, by DEPTH (R212). -/
def frameOf (depth : Depth) (r : Results) : DecodedFrame :=
  match depth with
  | .none => .tooShort
  | .eth => .ethernetOnly r.eth
  | .ethIp => .withIpv4 r.eth r.ip
  | .ethIpTcp => .withIpv4Tcp r.eth r.ip r.tcp r.payOff r.payLen

/-- The registers that hold a DecodedFrame, 0 where a layer is absent (R26, R212). -/
def DecodedFrame.regs : DecodedFrame → Results
  | .tooShort => Results.zero
  | .ethernetOnly e => { Results.zero with ethDst := e.destMac, ethSrc := e.sourceMac, ethType := e.etherType }
  | .withIpv4 e i =>
    { Results.zero with
      ethDst := e.destMac, ethSrc := e.sourceMac, ethType := e.etherType, ipVihl := i.versionAndIhl, ipHlen := i.headerLen
      ipProto := i.protocol, ipSrc := i.sourceAddr, ipDst := i.destAddr }
  | .withIpv4Tcp e i t off len =>
    { ethDst := e.destMac, ethSrc := e.sourceMac, ethType := e.etherType, ipVihl := i.versionAndIhl, ipHlen := i.headerLen
      ipProto := i.protocol, ipSrc := i.sourceAddr, ipDst := i.destAddr, tcpSport := t.sourcePort, tcpDport := t.destPort
      tcpSeq := t.seqNum, tcpAck := t.ackNum, tcpDoff := t.dataOffset, payOff := off, payLen := len }

/-- How many layers a DecodedFrame has (R33). -/
def DecodedFrame.depth : DecodedFrame → Depth
  | .tooShort => .none
  | .ethernetOnly _ => .eth
  | .withIpv4 _ _ => .ethIp
  | .withIpv4Tcp _ _ _ _ _ => .ethIpTcp

/-- The DecodedFrame of a state. -/
def State.frame (s : State) : DecodedFrame := frameOf s.depth s.regs

end Sys2Proof.Machine
end

