-- ==== Sys2Proof/Machine/Renderer.lean ====
section
/-! DEFINITION. The Renderer (spec/45_renderer_host.md), host software that reads a DecodedFrame and the payload bytes. Text
is a list of characters. The words it does not fix are parameters (R241, U16). -/

namespace Sys2Proof.Machine

/-- A text. -/
abbrev Text := List Char

/-- The open parameters `LBL_*`, `MARKER_TEXT` and `EOL` (R241, U16), and which MAC address is printed first (R243). A label
is everything that stands before its value, and an `end` label everything after a section's last value, line breaks
included, so any number of lines a section is a choice of labels. Assumption log 10. -/
structure RenderParams where
  macSrcFirst  : Bool
  lblSrcMac    : Text
  lblDstMac    : Text
  lblEtherType : Text
  endEth       : Text
  lblIpSrc     : Text
  lblIpDst     : Text
  lblProtocol  : Text
  lblIpHlen    : Text
  endIp        : Text
  lblSport     : Text
  lblDport     : Text
  lblSeq       : Text
  lblAck       : Text
  endTcp       : Text
  markerText   : Text
  /-- The line terminator; its default is the newline (R241). -/
  eol          : Text := ['\n']
deriving DecidableEq, Repr

/-- One lower-case hexadecimal digit. -/
def hexDigit (n : Nat) : Char := if n < 10 then Char.ofNat (48 + n) else Char.ofNat (87 + n)

/-- `hex2`: two lower-case hexadecimal digits (R243). -/
def hex2 (b : Byte) : Text := [hexDigit (b.toNat / 16), hexDigit (b.toNat % 16)]

/-- `hex4`: four lower-case hexadecimal digits of a number below 65536 (R244, R249). -/
def hex4 (n : Nat) : Text :=
  [hexDigit (n / 4096 % 16), hexDigit (n / 256 % 16), hexDigit (n / 16 % 16), hexDigit (n % 16)]

/-- The decimal digits of n, with fuel for their number. -/
def decDigits : Nat → Nat → Text
  | 0, _ => []
  | fuel + 1, n => if n < 10 then [Char.ofNat (48 + n)] else decDigits fuel (n / 10) ++ [Char.ofNat (48 + n % 10)]

/-- `dec`: the unsigned decimal numeral without leading zeros (R245), of a number below 10^10; the widest value printed
has 32 bits (R247). -/
def dec (n : Nat) : Text := decDigits 10 n

/-- Bits [8i+7 : 8i] of a value. -/
def octet {w : Nat} (v : BitVec w) (i : Nat) : Byte := v.extractLsb' (8 * i) 8

/-- A MAC address: six colon-separated two-digit bytes, the first byte in bits [47:40] (R243). -/
def macText (v : Mac) : Text :=
  hex2 (octet v 5) ++ [':'] ++ hex2 (octet v 4) ++ [':'] ++ hex2 (octet v 3) ++ [':'] ++ hex2 (octet v 2) ++ [':'] ++
    hex2 (octet v 1) ++ [':'] ++ hex2 (octet v 0)

/-- `ether_type`: `0x` and four digits (R244). -/
def etherTypeText (v : BitVec 16) : Text := ['0', 'x'] ++ hex4 v.toNat

/-- An IPv4 address in dotted decimal (R245). -/
def ipText (v : BitVec 32) : Text :=
  dec (octet v 3).toNat ++ ['.'] ++ dec (octet v 2).toNat ++ ['.'] ++ dec (octet v 1).toNat ++ ['.'] ++
    dec (octet v 0).toNat

/-- The Ethernet section (R241, R243, R244). -/
def ethSection (p : RenderParams) (e : EthernetHeader) : Text :=
  let src := p.lblSrcMac ++ macText e.sourceMac
  let dst := p.lblDstMac ++ macText e.destMac
  (if p.macSrcFirst then src ++ dst else dst ++ src) ++ p.lblEtherType ++ etherTypeText e.etherType ++ p.endEth

/-- The IPv4 section (R245, R246). -/
def ipSection (p : RenderParams) (i : Ipv4Header) : Text :=
  p.lblIpSrc ++ ipText i.sourceAddr ++ p.lblIpDst ++ ipText i.destAddr ++ p.lblProtocol ++ dec i.protocol.toNat ++
    p.lblIpHlen ++ dec i.headerLen.toNat ++ p.endIp

/-- The TCP section (R247). -/
def tcpSection (p : RenderParams) (t : TcpHeader) : Text :=
  p.lblSport ++ dec t.sourcePort.toNat ++ p.lblDport ++ dec t.destPort.toNat ++ p.lblSeq ++ dec t.seqNum.toNat ++
    p.lblAck ++ dec t.ackNum.toNat ++ p.endTcp

/-- The character a payload byte shows as: itself in [0x20, 0x7e], else a full stop (R250). -/
def asciiChar (b : Byte) : Char := if 0x20 ≤ b.toNat ∧ b.toNat ≤ 0x7e then Char.ofNat b.toNat else '.'

/-- One hex column of a dump row: a space and two digits, or three spaces where the row has no such byte (R249 (2)). -/
def hexColumn (row : List Byte) (i : Nat) : Text :=
  match row[i]? with
  | some b => ' ' :: hex2 b
  | none => [' ', ' ', ' ']

/-- A dump row without its line end: offset, sixteen hex columns, one space, the ASCII column (R249). -/
def dumpRowText (r : Nat) (row : List Byte) : Text :=
  hex4 (Config.dumpRow * r) ++ (List.range Config.dumpRow).flatMap (hexColumn row) ++ [' '] ++ row.map asciiChar

/-- The slice that is dumped: at most the first DUMP_MAX payload bytes (R248). -/
def dumpSlice (payload : List Byte) : List Byte := payload.take Config.dumpMax

/-- Row r of a slice: its bytes 16r to 16r + 15, as far as they go (R249). -/
def rowBytes (d : List Byte) (r : Nat) : List Byte := (d.drop (Config.dumpRow * r)).take Config.dumpRow

/-- How many rows a slice of n bytes takes: ceil(n / 16) (R249). -/
def rowCount (n : Nat) : Nat := (n + (Config.dumpRow - 1)) / Config.dumpRow

/-- The rows of the dump of a payload, without line ends (R248, R249). -/
def dumpRows (payload : List Byte) : List Text :=
  let d := dumpSlice payload
  (List.range (rowCount d.length)).map fun r => dumpRowText r (rowBytes d r)

/-- The hex/ASCII dump: each row and its line end (R249 (5)). -/
def dump (p : RenderParams) (payload : List Byte) : Text := (dumpRows payload).flatMap fun row => row ++ p.eol

/-- The marker line (R251). -/
def markerLine (p : RenderParams) : Text := p.markerText ++ p.eol

/-- The block of one frame, from the DecodedFrame and its payload bytes (R240, R241, R242). -/
def render (p : RenderParams) (f : DecodedFrame) (payload : List Byte) : Text :=
  match f with
  | .tooShort => markerLine p
  | .ethernetOnly e => ethSection p e ++ markerLine p
  | .withIpv4 e i => ethSection p e ++ ipSection p i
  | .withIpv4Tcp e i t _ len =>
    ethSection p e ++ ipSection p i ++ tcpSection p t ++ (if 0 < len then dump p payload else [])

/-- The payload bytes FB[PAY_OFF .. PAY_OFF + min(PAY_LEN, 128) - 1] that the Renderer reads (R172, R240), from FB's current
content (assumption log 10). -/
def State.payload (s : State) : List Byte :=
  (List.range' s.regs.payOff (min s.regs.payLen Config.dumpMax)).map s.byte

/-- The block of the DecodedFrame that a state's registers hold. R240 has the host read its inputs with HREAD and HREADFB while
STATUS.DONE = 1; DESIGN CHOICE (assumption log 10): this function takes the registers' and FB's current content in every
phase and tests no DONE, so outside DONE it is the block of no frame and says nothing of what a host's reads return. -/
def renderState (p : RenderParams) (s : State) : Text := render p s.frame s.payload

end Sys2Proof.Machine
end

