-- ==== Sys2Proof/Machine/Script.lean ====
section
/-! DEFINITION. The pseudo-commands of a host script (spec/30_encoding.md R118) as host script lines. -/

namespace Sys2Proof.Machine

/-- One HLOAD for each byte of F, the first at index `at0`. -/
def loadLines (at0 : Nat) : List Byte → List HostAction
  | [] => []
  | b :: f => .issue (.writeFb at0 b) :: loadLines (at0 + 1) f

/-- `SUBMIT F`: HSETLEN n, an HLOAD for each byte, HSTART (R118, R303). -/
def submit (f : List Byte) : List HostAction :=
  .issue (.writeReg 18 f.length) :: loadLines 0 f ++ [.issue (.writeReg 16 1)]

/-- `HWAIT` (R118). -/
def hwait : List HostAction := [.wait]

/-- The reads of `DECODE F`: DEPTH, STOP_REASON, FLAGS, then result registers 0 to 14 (R118). -/
def collect : List HostAction := ([19, 20, 21] ++ List.range 15).map fun r => .issue (.readReg r)

/-- `DECODE F` (R118). -/
def decodeScript (f : List Byte) : List HostAction := submit f ++ hwait ++ collect

/-- What the reads of `collect` return from a state whose decode has ended. -/
def collected (s : State) : List Nat :=
  [readReg .depth s, readReg .stopReason s, readReg .flags s,
    readReg .ethDst s, readReg .ethSrc s, readReg .ethType s,
    readReg .ipVihl s, readReg .ipHlen s, readReg .ipProto s, readReg .ipSrc s, readReg .ipDst s,
    readReg .tcpSport s, readReg .tcpDport s, readReg .tcpSeq s, readReg .tcpAck s, readReg .tcpDoff s,
    readReg .payOff s, readReg .payLen s]

end Sys2Proof.Machine
end

