-- ==== Sys2Proof/Safety.lean ====
section
/-! DEFINITION. What counts as a safe run, and the machine's invariant: in each phase the tests of the phases before it have
passed, and the registers hold exactly the layers decoded so far (spec/44_decode_function.md R215, R225;
spec/10_state.md R25, R26). -/

namespace Sys2Proof.Machine

/-- The Ethernet header fits (P1 passed, R130). -/
def EthFits (s : State) : Prop := Config.ethHlen ≤ s.len

/-- P3 passed: the ether-type is IPv4 and a minimum IPv4 header fits (R132). -/
def IpFits (s : State) : Prop :=
  be16 s.byte 12 = Config.etherTypeIpv4 ∧ Config.ethHlen + Config.ipMinHlen ≤ s.len

/-- P4 passed: the IPv4 header length is valid and W_IPHL holds it (R150). -/
def IpHdrOk (s : State) : Prop :=
  Config.ipMinHlen ≤ ipHdrLen s.byte ∧ l3 + ipHdrLen s.byte ≤ s.len ∧ s.wIphl.toNat = ipHdrLen s.byte

/-- P6 passed: the protocol is TCP and a minimum TCP header fits (R152). -/
def TcpFits (s : State) : Prop :=
  s.byte ipProtoAt = Config.ipProtoTcp ∧ l3 + ipHdrLen s.byte + Config.tcpMinHlen ≤ s.len

/-- P7 passed: the TCP header length is valid and W_TCPHL holds it (R170). -/
def TcpHdrOk (s : State) : Prop :=
  Config.tcpMinHlen ≤ tcpHdrLen s.byte ∧ l3 + ipHdrLen s.byte + tcpHdrLen s.byte ≤ s.len ∧
    s.wTcphl.toNat = tcpHdrLen s.byte

/-- What holds in each phase. In DONE the frame buffer may hold the next frame already, so the record is that of some
admissible frame (R191, R307). -/
def PhaseInv (s : State) : Prop :=
  match s.phase with
  | .idle => s.record = DecodeRecord.start ∧ s.wIphl = 0 ∧ s.wTcphl = 0
  | .p1 => s.record = DecodeRecord.start ∧ s.wIphl = 0 ∧ s.wTcphl = 0
  | .p2 => s.record = DecodeRecord.start ∧ EthFits s ∧ s.wIphl = 0 ∧ s.wTcphl = 0
  | .p3 => s.record = recordEth s.macOrder s.byte ∧ EthFits s ∧ s.wIphl = 0 ∧ s.wTcphl = 0
  | .p4 => s.record = recordEth s.macOrder s.byte ∧ IpFits s ∧ s.wIphl = 0 ∧ s.wTcphl = 0
  | .p5 => s.record = recordEth s.macOrder s.byte ∧ IpFits s ∧ IpHdrOk s ∧ s.wTcphl = 0
  | .p6 => s.record = recordIp s.macOrder s.byte ∧ IpFits s ∧ IpHdrOk s ∧ s.wTcphl = 0
  | .p7 => s.record = recordIp s.macOrder s.byte ∧ IpFits s ∧ IpHdrOk s ∧ TcpFits s ∧ s.wTcphl = 0
  | .p8 => s.record = recordIp s.macOrder s.byte ∧ IpFits s ∧ IpHdrOk s ∧ TcpFits s ∧ TcpHdrOk s
  | .done => ∃ fb len, len ≤ s.maxFrame ∧ s.record = decodeFrame s.macOrder fb len

/-- The machine's invariant. -/
structure Inv (s : State) : Prop where
  /-- FB keeps its canonical form (R60). -/
  fbWf : Memory.wf s.maxFrame s.fb = true
  /-- A decode that runs was started with an admissible length (R193, R305). -/
  lenOk : s.busy = true → s.len ≤ s.maxFrame
  /-- The registers of `LEN_W` bits hold values of that width (R21, R35). -/
  widths : s.frameLen < 2 ^ s.lenW ∧ s.regs.payOff < 2 ^ s.lenW ∧ s.regs.payLen < 2 ^ s.lenW
  /-- What the phase says (R215). -/
  phaseInv : PhaseInv s

/-- A run of k steps that ends in no fault. A refusal is no fault: the spec gives the machine no step there (R272). -/
def SafeFor (k : Nat) (s : State) : Prop := ∀ f, Sys2Proof.core.run k s ≠ .fault f

/-- The engine's part of two states is the same (R20): everything but the HOST's script and replies and the model's
counter of drawn read values. The buffer is compared by what its bytes read as. -/
structure SameEngine (s t : State) : Prop where
  byte : s.byte = t.byte
  frameLen : s.frameLen = t.frameLen
  record : s.record = t.record
  phase : s.phase = t.phase
  wIphl : s.wIphl = t.wIphl
  wTcphl : s.wTcphl = t.wTcphl
  maxFrame : s.maxFrame = t.maxFrame
  macOrder : s.macOrder = t.macOrder

/-- The transitions of PHASE that parse operations make (R215): to the next phase, or to DONE. -/
def parseGraph : List (Phase × Phase) :=
  [(.p1, .done), (.p1, .p2), (.p2, .p3), (.p3, .done), (.p3, .p4), (.p4, .done), (.p4, .p5), (.p5, .p6),
    (.p6, .done), (.p6, .p7), (.p7, .done), (.p7, .p8), (.p8, .done)]

/-- The one parse operation that writes a result register with frame data (R21, "written by"). -/
def resultWriter : Reg → Option Instr
  | .ethDst | .ethSrc | .ethType => some .exteth
  | .ipVihl | .ipHlen | .ipProto | .ipSrc | .ipDst => some .extip
  | .tcpSport | .tcpDport | .tcpSeq | .tcpAck | .tcpDoff | .payOff | .payLen => some .exttcp
  | .reserved15 | .ctrl | .status | .frameLen | .depth | .stopReason | .flags => none

/-- The least DEPTH at which a result register holds a field of the frame (R21, "valid at depth"). -/
def validAtDepth : Reg → Option Nat
  | .ethDst | .ethSrc | .ethType => some 1
  | .ipVihl | .ipHlen | .ipProto | .ipSrc | .ipDst => some 2
  | .tcpSport | .tcpDport | .tcpSeq | .tcpAck | .tcpDoff | .payOff | .payLen => some 3
  | .reserved15 | .ctrl | .status | .frameLen | .depth | .stopReason | .flags => none

end Sys2Proof.Machine
end

