-- ==== Sys2Proof/Certificates/Slice0/Obligations.lean ====
section
/-! DEFINITION. The statements about the model, from the spec's numbered rules. -/

section

open Sys2Proof Sys2Proof.Machine

/-! ## Reset, encoding, the step -/

/-- R55: what reset leaves. R55 says of FB that every byte is any value; that no byte is listed is the model's form of that
(assumption log 2). -/
def Obligations.ResetLeavesEveryRegisterZero : Prop :=
  State.reset.phase = .idle ∧ State.reset.status = 0 ∧ State.reset.frameLen = 0 ∧ State.reset.depth = .none ∧
  State.reset.stopReason = .none ∧ State.reset.flags = 0 ∧
  (∀ r, readReg r State.reset = 0) ∧ State.reset.wIphl = 0 ∧ State.reset.wTcphl = 0 ∧
  (∀ a, Memory.lookup State.reset.fb a = none)

/-- Words written out from the spec's encodings, each decoding to its instruction: the PHASE codes (R40), the accesses
(R115), the selectors (R92 to R101), and some that select none. -/
def Obligations.WrittenOutCodesDecode : Prop :=
  let d := decode Config.maxFrame
  d (.phase 1) = .instr .chketh ∧ d (.phase 8) = .instr .exttcp ∧
  d (.phase 0) = .rejected (.notAnOperation 0) ∧ d (.phase 9) = .rejected (.notAnOperation 9) ∧
  d (.access (.writeReg 16 1)) = .instr .hstart ∧ d (.access (.writeReg 16 0)) = .rejected .noCommand ∧
  d (.access (.writeReg 18 54)) = .instr (.hsetlen 54) ∧
  d (.access (.readReg 8)) = .instr (.hread .tcpSport) ∧
  d (.access (.readReg 22)) = .rejected (.noSuchRegister 22) ∧
  d (.etherTypeBytes 0x08 0x00) = .instr .ethertypeIpv4 ∧
  d (.etherTypeBytes 0x00 0x08) = .rejected (.unsupportedEtherType 0x0008) ∧
  d (.vihlByte 0x4f) = .instr (.ihlLegal 15) ∧ d (.vihlByte 0x44) = .rejected (.illegalIhl 4) ∧
  d (.protocolByte 6) = .instr .protocolTcp ∧ d (.protocolByte 17) = .rejected (.unsupportedProtocol 17) ∧
  d (.dataOffsetByte 0x5f) = .instr (.dataOffsetLegal 5)

/-- R7, U15: LEN_W is the least width that holds MAX_FRAME, and 17 at the default MAX_FRAME. -/
def Obligations.LenWIsTheLeastWidth : Prop :=
  (∀ m : Nat, m < 2 ^ Config.lenWOf m ∧ ∀ w, m < 2 ^ w → Config.lenWOf m ≤ w) ∧
  State.reset.maxFrame = 65536 ∧ State.reset.lenW = 17

/-- Decoding the code of a well-formed instruction gives it back, every operand at every value, for every MAX_FRAME. -/
def Obligations.DecodeEncodeRoundTrip : Prop :=
  ∀ (m : Nat) (i : Instr), i.wf m = true → decode m (encode i) = .instr i

/-- Whatever a code decodes to is well-formed and of the code's family, and no reserved or out-of-range code decodes: PHASE
codes 0 and 9 to 15 (R40), registers 22 and above, bytes and lengths past their bounds (U7, U8), and the selector values that
lead nowhere (R93, R97, R98, R102) are rejected by name. -/
def Obligations.DecodedInstructionsAreWellFormed : Prop :=
  ∀ m : Nat,
    (∀ (c : Code) (i : Instr), decode m c = .instr i → i.wf m = true ∧ i.family = c.family) ∧
    (∀ k : BitVec 4, k = 0 ∨ 9 ≤ k.toNat → decode m (.phase k) = .rejected (.notAnOperation k)) ∧
    (∀ k v, 22 ≤ k → decode m (.access (.readReg k)) = .rejected (.noSuchRegister k) ∧
      decode m (.access (.writeReg k v)) = .rejected (.noSuchRegister k)) ∧
    (∀ a b, m ≤ a → decode m (.access (.readFb a)) = .rejected (.noSuchByte a) ∧
      decode m (.access (.writeFb a b)) = .rejected (.noSuchByte a)) ∧
    (∀ n, 2 ^ Config.lenWOf m ≤ n → decode m (.access (.writeReg 18 n)) = .rejected (.lengthNotRepresentable n)) ∧
    (∀ x y : Byte, x ++ y ≠ 0x0800#16 → decode m (.etherTypeBytes x y) = .rejected (.unsupportedEtherType (x ++ y))) ∧
    (∀ b : Byte, b.toNat % 16 < 5 → decode m (.vihlByte b) = .rejected (.illegalIhl (BitVec.ofNat 4 b.toNat))) ∧
    (∀ b : Byte, b ≠ 6 → decode m (.protocolByte b) = .rejected (.unsupportedProtocol b)) ∧
    (∀ b : Byte, b.toNat / 16 < 5 →
      decode m (.dataOffsetByte b) = .rejected (.illegalDataOffset (BitVec.ofNat 4 (b.toNat / 16))))

/-- R97, R102, R112: which values of the four selector fields lead on. -/
def Obligations.SelectorValuesThatLeadOn : Prop :=
  (∀ m a b i, decode m (.etherTypeBytes a b) = .instr i ↔ a.toNat * 256 + b.toNat = 0x0800 ∧ i = .ethertypeIpv4) ∧
  (∀ m b i, decode m (.vihlByte b) = .instr i ↔ 5 ≤ b.toNat % 16 ∧ i = .ihlLegal (BitVec.ofNat 4 b.toNat)) ∧
  (∀ m b i, decode m (.protocolByte b) = .instr i ↔ b.toNat = 6 ∧ i = .protocolTcp) ∧
  (∀ m b i, decode m (.dataOffsetByte b) = .instr i ↔
    5 ≤ b.toNat / 16 ∧ i = .dataOffsetLegal (BitVec.ofNat 4 (b.toNat / 16)))

/-- A step runs the decoded instruction: the host's next line where it has one, else the parse operation PHASE names.
An access to a register, byte or length that does not exist has no step (R194, U7, U8), which the model answers with a
refusal by name (assumption log 12). The script is the model's form of the host (assumption log 1); that a write that is no
command does nothing but end its line is read from R31 and U10 (assumption log 13). -/
def Obligations.StepRunsTheDecodedInstruction : Prop :=
  ∀ s : State,
    (∀ i, s.script = [] → decode s.maxFrame (.phase s.phase.code) = .instr i → step s = exec i s) ∧
    (∀ rest i, s.script = .yield :: rest → decode s.maxFrame (.phase s.phase.code) = .instr i →
      step s = exec i { s with script := rest }) ∧
    (∀ rest, s.script = .yield :: rest → s.busy = false → step s = .next { s with script := rest }) ∧
    (∀ a rest i, s.script = .issue a :: rest → decode s.maxFrame (.access a) = .instr i →
      step s = exec i { s with script := rest }) ∧
    (∀ a rest, s.script = .issue a :: rest → decode s.maxFrame (.access a) = .rejected .noCommand →
      step s = .next { s with script := rest }) ∧
    (∀ k rest, s.script = .issue (.readReg k) :: rest → 22 ≤ k → step s = .refused (.noSuchRegister k)) ∧
    (∀ k v rest, s.script = .issue (.writeReg k v) :: rest → 22 ≤ k → step s = .refused (.noSuchRegister k)) ∧
    (∀ a b rest, s.script = .issue (.writeFb a b) :: rest → s.maxFrame ≤ a → step s = .refused (.noSuchByte a)) ∧
    (∀ a rest, s.script = .issue (.readFb a) :: rest → s.maxFrame ≤ a → step s = .refused (.noSuchByte a)) ∧
    (∀ n rest, s.script = .issue (.writeReg 18 n) :: rest → 2 ^ s.lenW ≤ n →
      step s = .refused (.lengthNotRepresentable n)) ∧
    (∀ rest, s.script = .wait :: rest →
      step s = exec (.hread .status)
        { s with script := if s.phase = .done then rest else .yield :: .wait :: rest })

/-- R196: the engine has an enabled step exactly while BUSY, and it is the operation PHASE names. -/
def Obligations.EngineStepsExactlyWhileBusy : Prop :=
  ∀ s : State, s.script = [] →
    (s.busy = true → ∃ i, i.family = .parseOp ∧ phaseOf i = some s.phase ∧ step s = exec i s) ∧
    (s.busy = false → step s = .refused .noEnabledStep)

/-! ## Reads of the frame buffer -/

/-- R13, R62, R64: MemRead returns the big-endian value inside the frame and raises OutOfRangeRead outside it. -/
def Obligations.MemReadIsGuardedAndBigEndian : Prop :=
  ∀ (a : Nat) (s : State),
    memRead8 a s = (if a + 1 ≤ s.len then .ok (s.byte a) else .error (.outOfRangeRead a 1)) ∧
    (∃ v : BitVec 16, memRead16 a s = (if a + 2 ≤ s.len then .ok v else .error (.outOfRangeRead a 2)) ∧
      v.toNat = (s.byte a).toNat * 2 ^ 8 + (s.byte (a + 1)).toNat) ∧
    (∃ v : BitVec 32, memRead32 a s = (if a + 4 ≤ s.len then .ok v else .error (.outOfRangeRead a 4)) ∧
      v.toNat = (s.byte a).toNat * 2 ^ 24 + (s.byte (a + 1)).toNat * 2 ^ 16 + (s.byte (a + 2)).toNat * 2 ^ 8 +
        (s.byte (a + 3)).toNat) ∧
    (∃ v : BitVec 48, memRead48 a s = (if a + 6 ≤ s.len then .ok v else .error (.outOfRangeRead a 6)) ∧
      v.toNat = (s.byte a).toNat * 2 ^ 40 + (s.byte (a + 1)).toNat * 2 ^ 32 + (s.byte (a + 2)).toNat * 2 ^ 24 +
        (s.byte (a + 3)).toNat * 2 ^ 16 + (s.byte (a + 4)).toNat * 2 ^ 8 + (s.byte (a + 5)).toNat)

/-- R13, R62, R67: an instruction faults exactly when its phase is on and one of its reads reaches past FRAME_LEN; a host
command never faults. That the fault names the first such read, in the order of the rule's lines, is the model's reading
(assumption log 16). -/
def Obligations.FaultsAreExactlyReadsPastTheFrame : Prop :=
  ∀ (i : Instr) (s : State) (f : Fault),
    exec i s = .fault f ↔
      phaseOf i = some s.phase ∧
      ∃ a n, f = .outOfRangeRead a n ∧ (readsOf i s).find? (fun r => decide (s.len < r.1 + r.2)) = some (a, n)

/-! ## The parse operations -/

/-- R130: P1 CHKETH. -/
def Obligations.ChkethResult : Prop :=
  ∀ s : State, s.phase = .p1 →
    (s.len < 14 → exec .chketh s = .next { s with stopReason := .truncatedFrame, phase := .done }) ∧
    (14 ≤ s.len → exec .chketh s = .next { s with phase := .p2 })

/-- R131: P2 EXTETH, for both values of MAC_ORDER. -/
def Obligations.ExtethResult : Prop :=
  ∀ s : State, s.phase = .p2 → 14 ≤ s.len →
    (s.macOrder = .dstFirst →
      exec .exteth s = .next { s with
        regs := { s.regs with ethDst := be48 s.byte 0, ethSrc := be48 s.byte 6, ethType := be16 s.byte 12 }
        depth := .eth, phase := .p3 }) ∧
    (s.macOrder = .srcFirst →
      exec .exteth s = .next { s with
        regs := { s.regs with ethSrc := be48 s.byte 0, ethDst := be48 s.byte 6, ethType := be16 s.byte 12 }
        depth := .eth, phase := .p3 })

/-- R132: P3 SELIP. -/
def Obligations.SelipResult : Prop :=
  ∀ s : State, s.phase = .p3 →
    (s.regs.ethType ≠ 0x0800 →
      exec .selip s = .next { s with stopReason := .unsupportedEtherType, phase := .done }) ∧
    (s.regs.ethType = 0x0800 → s.len < 34 →
      exec .selip s = .next { s with stopReason := .invalidOrTruncatedIpHeader, phase := .done }) ∧
    (s.regs.ethType = 0x0800 → 34 ≤ s.len → exec .selip s = .next { s with phase := .p4 })

/-- R150: P4 DECIHL. The nibble is the low one of byte 14 (R96). -/
def Obligations.DecihlResult : Prop :=
  ∀ s : State, s.phase = .p4 → 15 ≤ s.len →
    let hl := 4 * ((s.byte 14).toNat % 16)
    ((hl < 20 ∨ 14 + hl > s.len) →
      exec .decihl s = .next { s with stopReason := .invalidOrTruncatedIpHeader, phase := .done }) ∧
    (20 ≤ hl → 14 + hl ≤ s.len → exec .decihl s = .next { s with wIphl := BitVec.ofNat 6 hl, phase := .p5 })

/-- R151: P5 EXTIP. -/
def Obligations.ExtipResult : Prop :=
  ∀ s : State, s.phase = .p5 → 34 ≤ s.len →
    exec .extip s = .next { s with
      regs := { s.regs with
        ipVihl := s.byte 14, ipHlen := s.wIphl, ipProto := s.byte 23, ipSrc := be32 s.byte 26, ipDst := be32 s.byte 30 }
      depth := .ethIp, phase := .p6 }

/-- R152: P6 SELTCP. -/
def Obligations.SeltcpResult : Prop :=
  ∀ s : State, s.phase = .p6 →
    (s.regs.ipProto ≠ 6 →
      exec .seltcp s = .next { s with stopReason := .unsupportedIpProtocol, phase := .done }) ∧
    (s.regs.ipProto = 6 → 14 + s.wIphl.toNat + 20 > s.len →
      exec .seltcp s = .next { s with stopReason := .invalidOrTruncatedTcpHeader, phase := .done }) ∧
    (s.regs.ipProto = 6 → 14 + s.wIphl.toNat + 20 ≤ s.len → exec .seltcp s = .next { s with phase := .p7 })

/-- R170: P7 DECDOFF, with L4 = 14 + W_IPHL. The nibble is the high one of byte L4+12 (R101). -/
def Obligations.DecdoffResult : Prop :=
  ∀ s : State, s.phase = .p7 → 14 + s.wIphl.toNat + 13 ≤ s.len →
    let l4 := 14 + s.wIphl.toNat
    let tl := 4 * ((s.byte (l4 + 12)).toNat / 16)
    ((tl < 20 ∨ l4 + tl > s.len) →
      exec .decdoff s = .next { s with stopReason := .invalidOrTruncatedTcpHeader, phase := .done }) ∧
    (20 ≤ tl → l4 + tl ≤ s.len → exec .decdoff s = .next { s with wTcphl := BitVec.ofNat 6 tl, phase := .p8 })

/-- R171: P8 EXTTCP, under what P7 leaves (L4 + 20 ≤ LEN and L4 + W_TCPHL ≤ LEN). -/
def Obligations.ExttcpResult : Prop :=
  ∀ s : State, s.phase = .p8 → 14 + s.wIphl.toNat + 20 ≤ s.len → 14 + s.wIphl.toNat + s.wTcphl.toNat ≤ s.len →
    let l4 := 14 + s.wIphl.toNat
    exec .exttcp s = .next { s with
      regs := { s.regs with
        tcpSport := be16 s.byte l4, tcpDport := be16 s.byte (l4 + 2), tcpSeq := be32 s.byte (l4 + 4)
        tcpAck := be32 s.byte (l4 + 8), tcpDoff := BitVec.ofNat 4 (s.wTcphl.toNat / 4)
        payOff := l4 + s.wTcphl.toNat, payLen := s.len - (l4 + s.wTcphl.toNat) }
      depth := .ethIpTcp, stopReason := .none, phase := .done }

/-- The selectors' effects (R110): each leads on from its operation, or stops the decode by that operation's length test. A
selector as an instruction of its own is the model's form (assumption log 5). -/
def Obligations.SelectorResults : Prop :=
  (∀ s : State, s.phase = .p3 → s.regs.ethType = 0x0800 →
    exec .ethertypeIpv4 s = .next (if s.len < 34 then { s with stopReason := .invalidOrTruncatedIpHeader, phase := .done }
      else { s with phase := .p4 })) ∧
  (∀ (s : State) (ihl : Nibble), s.phase = .p4 → 15 ≤ s.len → (s.byte 14).toNat % 16 = ihl.toNat → 5 ≤ ihl.toNat →
    exec (.ihlLegal ihl) s = .next (if 14 + 4 * ihl.toNat > s.len
      then { s with stopReason := .invalidOrTruncatedIpHeader, phase := .done }
      else { s with wIphl := BitVec.ofNat 6 (4 * ihl.toNat), phase := .p5 })) ∧
  (∀ s : State, s.phase = .p6 → s.regs.ipProto = 6 →
    exec .protocolTcp s = .next (if 14 + s.wIphl.toNat + 20 > s.len
      then { s with stopReason := .invalidOrTruncatedTcpHeader, phase := .done } else { s with phase := .p7 })) ∧
  (∀ (s : State) (doff : Nibble), s.phase = .p7 → 14 + s.wIphl.toNat + 13 ≤ s.len →
    (s.byte (14 + s.wIphl.toNat + 12)).toNat / 16 = doff.toNat → 5 ≤ doff.toNat →
    exec (.dataOffsetLegal doff) s = .next (if 14 + s.wIphl.toNat + 4 * doff.toNat > s.len
      then { s with stopReason := .invalidOrTruncatedTcpHeader, phase := .done }
      else { s with wTcphl := BitVec.ofNat 6 (4 * doff.toNat), phase := .p8 }))

/-- R110, R112: P3, P4, P6 and P7 run the selector their frame field decodes to, and stop the decode with the reason of that
field where it decodes to none (in the states a run reaches, Inv). -/
def Obligations.ParseOperationsFollowTheFramesSelectors : Prop :=
  ∀ (s : State), Inv s →
    (s.phase = .p3 → exec .selip s = match decode s.maxFrame (.etherTypeBytes (s.byte 12) (s.byte 13)) with
      | .instr i => exec i s
      | .rejected _ => .next (raiseStop .unsupportedEtherType s)) ∧
    (s.phase = .p4 → exec .decihl s = match decode s.maxFrame (.vihlByte (s.byte 14)) with
      | .instr i => exec i s
      | .rejected _ => .next (raiseStop .invalidOrTruncatedIpHeader s)) ∧
    (s.phase = .p6 → exec .seltcp s = match decode s.maxFrame (.protocolByte (s.byte 23)) with
      | .instr i => exec i s
      | .rejected _ => .next (raiseStop .unsupportedIpProtocol s)) ∧
    (s.phase = .p7 → exec .decdoff s = match decode s.maxFrame (.dataOffsetByte (s.byte (s.l4 + 12))) with
      | .instr i => exec i s
      | .rejected _ => .next (raiseStop .invalidOrTruncatedTcpHeader s))

/-! ## The host commands -/

/-- R300: HRESET, in any phase. FB holds no byte the host wrote; what it reads as is a free value of a new reset
(assumption log 2); the HOST's script and replies and the parameters stay (assumption log 1, 4, 15). -/
def Obligations.HresetResult : Prop :=
  ∀ s : State, ∃ t, exec .hreset s = .next t ∧
    t.phase = .idle ∧ t.frameLen = 0 ∧ t.depth = .none ∧ t.stopReason = .none ∧ t.regs = Results.zero ∧
    t.wIphl = 0 ∧ t.wTcphl = 0 ∧ t.status = 0 ∧ t.flags = 0 ∧
    (∀ a, Memory.lookup t.fb a = none) ∧ (∀ a, t.byte a = Config.freeByte (s.resets + 1) a) ∧
    t.maxFrame = s.maxFrame ∧ t.macOrder = s.macOrder ∧ t.script = s.script ∧ t.replies = s.replies

/-- R191: HLOAD, its refusals, and its frame: no other byte and no register. -/
def Obligations.HloadResult : Prop :=
  ∀ (s : State) (a : Nat) (b : Byte),
    (s.busy = false → a < s.maxFrame → ∃ t, exec (.hload a b) s = .next t ∧
      t.byte a = b ∧ (∀ k, k ≠ a → t.byte k = s.byte k) ∧ t = { s with fb := t.fb }) ∧
    (s.busy = true → exec (.hload a b) s = .refused .hloadWhileBusy) ∧
    (s.busy = false → s.maxFrame ≤ a → exec (.hload a b) s = .refused (.noSuchByte a))

/-- R192: HSETLEN, its refusal while BUSY, and nothing else changes. That a value that does not fit LEN_W bits is refused is U8 and
the model's form of a command without a step (assumption log 12). -/
def Obligations.HsetlenResult : Prop :=
  ∀ (s : State) (n : Nat),
    (s.busy = false → n < 2 ^ s.lenW → ∃ t, exec (.hsetlen n) s = .next t ∧ t.len = n ∧ t = { s with frameLen := t.frameLen }) ∧
    (s.busy = true → exec (.hsetlen n) s = .refused .hsetlenWhileBusy) ∧
    (s.busy = false → 2 ^ s.lenW ≤ n → exec (.hsetlen n) s = .refused (.lengthNotRepresentable n))

/-- R193: HSTART, its refusals, and what it leaves as it is. -/
def Obligations.HstartResult : Prop :=
  ∀ s : State,
    (s.busy = false → s.len ≤ s.maxFrame → exec .hstart s = .next { s with
      regs := Results.zero, depth := .none, stopReason := .none, wIphl := 0, wTcphl := 0, phase := .p1 }) ∧
    (s.busy = true → exec .hstart s = .refused .hstartWhileBusy) ∧
    (s.busy = false → s.maxFrame < s.len → exec .hstart s = .refused .frameLenExceedsMax)

/-- R194: HREAD of every register while not BUSY, and of STATUS, FRAME_LEN, CTRL and register 15 always, returns the
register and changes nothing of the engine; CTRL and register 15 return 0. Each value is written out from R21 and R30. That
a read's value is appended to a list of replies is the model's form (assumption log 1). -/
def Obligations.HreadResult : Prop :=
  ∀ s : State,
    let ret := fun (r : Reg) (v : Nat) => exec (.hread r) s = .next { s with replies := s.replies ++ [v] }
    ret .status ((if s.busy then 1 else 0) + (if s.phase = .done then 2 else 0)) ∧ ret .frameLen s.len ∧ ret .ctrl 0 ∧
    ret .reserved15 0 ∧
    (s.busy = false →
      ret .ethDst s.regs.ethDst.toNat ∧ ret .ethSrc s.regs.ethSrc.toNat ∧ ret .ethType s.regs.ethType.toNat ∧
      ret .ipVihl s.regs.ipVihl.toNat ∧ ret .ipHlen s.regs.ipHlen.toNat ∧ ret .ipProto s.regs.ipProto.toNat ∧
      ret .ipSrc s.regs.ipSrc.toNat ∧ ret .ipDst s.regs.ipDst.toNat ∧
      ret .tcpSport s.regs.tcpSport.toNat ∧ ret .tcpDport s.regs.tcpDport.toNat ∧ ret .tcpSeq s.regs.tcpSeq.toNat ∧
      ret .tcpAck s.regs.tcpAck.toNat ∧ ret .tcpDoff s.regs.tcpDoff.toNat ∧
      ret .payOff s.regs.payOff ∧ ret .payLen s.regs.payLen ∧
      ret .depth s.depth.code.toNat ∧ ret .stopReason s.stopReason.code.toNat ∧ ret .flags s.flags.toNat)

/-- R22, R194, U4: HREAD of a result register, DEPTH, STOP_REASON or FLAGS while BUSY completes; it returns any value, and
changes nothing of the engine. The rules bound that value by nothing: that it fits the register's width is the model's
deduction, and the counter of drawn values is the model's own (assumption log 3). -/
def Obligations.HreadWhileBusyReturnsAnyValue : Prop :=
  ∀ (s : State) (r : Reg), s.busy = true → freeWhileBusy r = true →
    ∃ w, w < 2 ^ regWidth s.maxFrame r ∧
      exec (.hread r) s = .next { s with replies := s.replies ++ [w], draws := s.draws + 1 }

/-- R195: HREADFB in every phase, and its refusal. The list of replies is the model's form (assumption log 1). -/
def Obligations.HreadfbResult : Prop :=
  ∀ (s : State) (a : Nat),
    (a < s.maxFrame → exec (.hreadfb a) s = .next { s with replies := s.replies ++ [(s.byte a).toNat] }) ∧
    (s.maxFrame ≤ a → exec (.hreadfb a) s = .refused (.noSuchByte a))

/-- R32: STATUS is a view of PHASE. -/
def Obligations.StatusIsAViewOfPhase : Prop :=
  ∀ s : State,
    (s.status.getLsbD 0 = true ↔
      s.phase = .p1 ∨ s.phase = .p2 ∨ s.phase = .p3 ∨ s.phase = .p4 ∨ s.phase = .p5 ∨ s.phase = .p6 ∨ s.phase = .p7 ∨
        s.phase = .p8) ∧
    (s.status.getLsbD 1 = true ↔ s.phase = .done) ∧
    (s.status = 0 ↔ s.phase = .idle) ∧
    s.status ≠ 3 ∧ State.reset.status = 0

/-- R36: FLAGS is a view of DEPTH and PAY_LEN, with the legal combinations of bits [2:0] only. -/
def Obligations.FlagsAreAViewOfDepthAndPayLen : Prop :=
  ∀ s : State,
    (s.flags.getLsbD 0 = true ↔ 1 ≤ s.depth.code.toNat) ∧
    (s.flags.getLsbD 1 = true ↔ 2 ≤ s.depth.code.toNat) ∧
    (s.flags.getLsbD 2 = true ↔ s.depth.code.toNat = 3) ∧
    (s.flags.getLsbD 3 = true ↔ s.depth.code.toNat = 3 ∧ 0 < s.regs.payLen) ∧
    s.flags.toNat % 8 ∈ [0, 1, 3, 7] ∧ State.reset.flags = 0

/-! ## Frames: what an instruction leaves as it is -/

/-- R61: every byte of FB is unchanged by every instruction but HLOAD and HRESET, and FRAME_LEN by every instruction but
HSETLEN and HRESET. HLOAD changes the one byte it names. -/
def Obligations.OnlyTheHostWritesTheFrame : Prop :=
  ∀ (i : Instr) (s t : State), exec i s = .next t →
    ((∀ a b, i ≠ .hload a b) → i ≠ .hreset → ∀ k, t.byte k = s.byte k) ∧
    (∀ a b, i = .hload a b → ∀ k, k ≠ a → t.byte k = s.byte k) ∧
    ((∀ n, i ≠ .hsetlen n) → i ≠ .hreset → t.frameLen = s.frameLen)

/-- R21: each result register is written by exactly one parse operation, and else only cleared by HSTART and HRESET. -/
def Obligations.ResultRegistersHaveOneWriter : Prop :=
  ∀ (i : Instr) (s t : State) (r : Reg) (w : Instr), exec i s = .next t → resultWriter r = some w →
    i ≠ w → i ≠ .hstart → i ≠ .hreset → readReg r t = readReg r s

/-- R33, R34, R45: who writes DEPTH, STOP_REASON and the two working registers, and with what. A working register gets the
header length of the frame, only when both checks of its operation pass. -/
def Obligations.DepthStopReasonAndWorkingRegistersHaveTheirWriters : Prop :=
  ∀ (i : Instr) (s t : State), exec i s = .next t → i ≠ .hstart → i ≠ .hreset →
    (t.depth = s.depth ∨ (i = .exteth ∧ t.depth = .eth) ∨ (i = .extip ∧ t.depth = .ethIp) ∨
      (i = .exttcp ∧ t.depth = .ethIpTcp)) ∧
    (t.stopReason = s.stopReason ∨ (i = .exttcp ∧ t.stopReason = .none) ∨
      (i = .chketh ∧ t.stopReason = .truncatedFrame) ∨
      (i = .selip ∧ t.stopReason = .unsupportedEtherType) ∨
      ((i = .selip ∨ i = .ethertypeIpv4 ∨ i = .decihl ∨ ∃ n, i = .ihlLegal n) ∧
        t.stopReason = .invalidOrTruncatedIpHeader) ∨
      (i = .seltcp ∧ t.stopReason = .unsupportedIpProtocol) ∨
      ((i = .seltcp ∨ i = .protocolTcp ∨ i = .decdoff ∨ ∃ n, i = .dataOffsetLegal n) ∧
        t.stopReason = .invalidOrTruncatedTcpHeader)) ∧
    (t.wIphl ≠ s.wIphl → (i = .decihl ∨ ∃ n, i = .ihlLegal n) ∧ t.phase = .p5 ∧
      t.wIphl.toNat = 4 * ((s.byte 14).toNat % 16) ∧ 20 ≤ t.wIphl.toNat ∧ 14 + t.wIphl.toNat ≤ s.len) ∧
    (t.wTcphl ≠ s.wTcphl → (i = .decdoff ∨ ∃ n, i = .dataOffsetLegal n) ∧ t.phase = .p8 ∧
      t.wTcphl.toNat = 4 * ((s.byte (14 + s.wIphl.toNat + 12)).toNat / 16) ∧ 20 ≤ t.wTcphl.toNat ∧
      14 + s.wIphl.toNat + t.wTcphl.toNat ≤ s.len)

/-- The parameters MAX_FRAME and MAC_ORDER are never changed (R50), and the host's script by no instruction. That they stand
in State is the model's choice (assumption log 1, 4, 15). -/
def Obligations.ParametersAndScriptStay : Prop :=
  ∀ (i : Instr) (s t : State), exec i s = .next t →
    t.maxFrame = s.maxFrame ∧ t.macOrder = s.macOrder ∧ t.script = s.script

/-- R15, R271: a decode ended early by a step of the engine changes STOP_REASON and PHASE and nothing else: the layers decoded
stay, the registers of the layers not reached stay, no address or byte is recorded. -/
def Obligations.StopsRecordOnlyTheReason : Prop :=
  ∀ (i : Instr) (s t : State), i ≠ .exttcp → phaseOf i ≠ none → exec i s = .next t → t.phase = .done →
    t.stopReason ≠ .none ∧ t = { s with stopReason := t.stopReason, phase := .done }

/-- R194, R307: the results stay from DONE until HSTART or HRESET, whatever else the host does. -/
def Obligations.ResultsPersistInDone : Prop :=
  ∀ (i : Instr) (s t : State), s.phase = .done → exec i s = .next t → i ≠ .hstart → i ≠ .hreset →
    t.phase = .done ∧ t.record = s.record

/-- R40 and the template of the operation rules (spec/40_ethernet_layer.md): a parse operation or selector has no step in another phase. -/
def Obligations.OperationsRunOnlyInTheirPhase : Prop :=
  ∀ (i : Instr) (s : State) (p : Phase), phaseOf i = some p → s.phase ≠ p → exec i s = .refused (.phaseMismatch p)

/-! ## The invariant, and the rules over the whole machine -/

/-- The reset state meets the invariant. -/
def Obligations.ResetMeetsTheInvariant : Prop := Inv State.reset

/-- Every step keeps the invariant, from every state that meets it. -/
def Obligations.EveryStepKeepsTheInvariant : Prop :=
  ∀ s t : State, Inv s → step s = .next t → Inv t

/-- R225: from every state that meets the invariant, no run of any length makes a read past the frame. -/
def Obligations.NoRunReadsPastTheFrame : Prop :=
  ∀ (s : State), Inv s → ∀ k, SafeFor k s

/-- R60: the frame buffer keeps its canonical form, from every state and not only those a run reaches. -/
def Obligations.FrameBufferKeepsItsCanonicalForm : Prop :=
  ∀ s t : State, Memory.wf s.maxFrame s.fb = true → step s = .next t → Memory.wf t.maxFrame t.fb = true

/-- R215, R41: a parse operation or selector moves PHASE along the parse graph: to the next phase, or to DONE; never
backward. -/
def Obligations.PhaseFollowsTheParseGraph : Prop :=
  ∀ (i : Instr) (s t : State), phaseOf i ≠ none → exec i s = .next t →
    (s.phase, t.phase) ∈ parseGraph ∧ (t.phase.code.toNat = s.phase.code.toNat + 1 ∨ t.phase = .done)

/-- R215: a host command leaves PHASE as it is, but for HSTART (from IDLE or DONE to P1) and HRESET (to IDLE). -/
def Obligations.HostCommandsMovePhaseOnlyByStartAndReset : Prop :=
  ∀ (i : Instr) (s t : State), phaseOf i = none → exec i s = .next t →
    t.phase = s.phase ∨ (i = .hstart ∧ (s.phase = .idle ∨ s.phase = .done) ∧ t.phase = .p1) ∨
      (i = .hreset ∧ t.phase = .idle)

/-- R33: DEPTH never decreases during a decode, and grows by one layer at most. -/
def Obligations.DepthNeverDecreasesDuringADecode : Prop :=
  ∀ (i : Instr) (s t : State), Inv s → phaseOf i ≠ none → exec i s = .next t →
    s.depth.code.toNat ≤ t.depth.code.toNat ∧ t.depth.code.toNat ≤ s.depth.code.toNat + 1

/-- R25: what holds of the registers when a step of the engine ends a decode. -/
def Obligations.FinishedDecodesAgreeWithTheFrame : Prop :=
  ∀ (i : Instr) (s t : State), Inv s → phaseOf i ≠ none → exec i s = .next t → t.phase = .done →
    (1 ≤ t.depth.code.toNat → 14 ≤ t.len) ∧
    (2 ≤ t.depth.code.toNat → t.regs.ethType = 0x0800 ∧ 34 ≤ t.len ∧
      t.regs.ipHlen.toNat = 4 * (t.regs.ipVihl.toNat % 16) ∧
      t.regs.ipHlen.toNat ∈ [20, 24, 28, 32, 36, 40, 44, 48, 52, 56, 60] ∧ 14 + t.regs.ipHlen.toNat ≤ t.len) ∧
    (t.depth.code.toNat = 3 → t.regs.ipProto = 6 ∧ 5 ≤ t.regs.tcpDoff.toNat ∧
      t.regs.payOff = 14 + t.regs.ipHlen.toNat + 4 * t.regs.tcpDoff.toNat ∧ t.regs.payOff ≤ t.len ∧
      t.regs.payOff + t.regs.payLen = t.len ∧ 54 ≤ t.regs.payOff ∧ t.regs.payOff ≤ 134) ∧
    (t.depth.code.toNat = 3 ↔ t.stopReason.code = 0)

/-- R26: the registers of absent layers read 0. -/
def Obligations.AbsentLayersReadZero : Prop :=
  ∀ (s : State) (r : Reg) (d : Nat), Inv s → validAtDepth r = some d → s.depth.code.toNat < d → readReg r s = 0

/-- R211: from any state with PHASE in IDLE or DONE and FRAME_LEN ≤ MAX_FRAME, HSTART and then the engine's steps, with no
host action between, end in DONE with the record of decode(FB, FRAME_LEN); FB and FRAME_LEN are unchanged. -/
def Obligations.StepsAgreeWithDecode : Prop :=
  ∀ s : State, s.busy = false → s.len ≤ s.maxFrame → s.script = [] →
    ∃ u t, exec .hstart s = .next u ∧ Sys2Proof.core.run (decodeOps s.byte s.len) u = .next t ∧
      t.phase = .done ∧ t.record = decodeFrame s.macOrder s.byte s.len ∧ t.byte = s.byte ∧ t.frameLen = s.frameLen

/-- R310: a decode takes the number of operations of the table, between one and eight: after that many PHASE is DONE, and
after fewer it is not. -/
def Obligations.DecodesTakeTheTablesOperations : Prop :=
  ∀ s : State, s.busy = false → s.len ≤ s.maxFrame → s.script = [] →
    1 ≤ decodeOps s.byte s.len ∧ decodeOps s.byte s.len ≤ 8 ∧
    (∃ t, Sys2Proof.core.run (decodeOps s.byte s.len) (beginDecode s) = .next t ∧ t.phase = .done) ∧
    ∀ k, k < decodeOps s.byte s.len → ∃ u, Sys2Proof.core.run k (beginDecode s) = .next u ∧ u.busy = true

/-- R227: the result is a function of LEN and of the bytes R227 lists: at most 37, all inside the frame, the highest index 86
at most (R225). -/
def Obligations.DecodeDependsOnlyOnTheListedBytes : Prop :=
  ∀ (o : Config.MacOrder) (f g : Nat → Byte) (len : Nat),
    (decodeReads f len).length ≤ 37 ∧ (∀ a ∈ decodeReads f len, a < len ∧ a ≤ 86) ∧
    ((∀ a ∈ decodeReads f len, f a = g a) → decodeFrame o f len = decodeFrame o g len)

/-- R228: the source's four testable properties. -/
def Obligations.SourcePropertiesHold : Prop :=
  ∀ (o : Config.MacOrder) (fb : Nat → Byte) (len : Nat),
    let r := decodeFrame o fb len
    let hl := 4 * ((fb 14).toNat % 16)
    let l4 := 14 + hl
    let tl := 4 * ((fb (l4 + 12)).toNat / 16)
    (len < 14 → r.depth = .none ∧ r.stopReason = .truncatedFrame ∧ decodeReads fb len = []) ∧
    (14 ≤ len → (fb 12).toNat * 256 + (fb 13).toNat ≠ 0x0800 → r.depth = .eth ∧ r.stopReason = .unsupportedEtherType) ∧
    (34 ≤ len → (fb 12).toNat * 256 + (fb 13).toNat = 0x0800 → hl > len - 14 →
      r.depth = .eth ∧ r.stopReason = .invalidOrTruncatedIpHeader ∧ r.regs.ipVihl = 0 ∧ r.regs.ipHlen = 0 ∧
        r.regs.ipProto = 0 ∧ r.regs.ipSrc = 0 ∧ r.regs.ipDst = 0) ∧
    ((fb 12).toNat * 256 + (fb 13).toNat = 0x0800 → 20 ≤ hl → fb 23 = 6 → l4 + 20 ≤ len → tl > len - l4 →
      r.depth = .ethIp ∧ r.stopReason = .invalidOrTruncatedTcpHeader ∧ r.regs.tcpSport = 0 ∧ r.regs.tcpDport = 0 ∧
        r.regs.tcpSeq = 0 ∧ r.regs.tcpAck = 0 ∧ r.regs.tcpDoff = 0 ∧ r.regs.payOff = 0 ∧ r.regs.payLen = 0)

/-- R229, R230: the exact condition of each depth and of each stop reason. -/
def Obligations.DepthsAndReasonsAreCharacterised : Prop :=
  ∀ (o : Config.MacOrder) (fb : Nat → Byte) (len : Nat),
    let r := decodeFrame o fb len
    let ty := (fb 12).toNat * 256 + (fb 13).toNat
    let hl := 4 * ((fb 14).toNat % 16)
    let p := (fb 23).toNat
    let l4 := 14 + hl
    let tl := 4 * ((fb (l4 + 12)).toNat / 16)
    let ip := 34 ≤ len ∧ ty = 0x0800 ∧ 20 ≤ hl ∧ 14 + hl ≤ len
    (r.depth = .none ↔ len < 14) ∧ (1 ≤ r.depth.code.toNat ↔ 14 ≤ len) ∧
    (2 ≤ r.depth.code.toNat ↔ ip) ∧
    (r.depth = .ethIpTcp ↔ ip ∧ p = 6 ∧ l4 + 20 ≤ len ∧ 20 ≤ tl ∧ l4 + tl ≤ len) ∧
    (r.stopReason.code.toNat = 1 ↔ len < 14) ∧
    (r.stopReason.code.toNat = 2 ↔ 14 ≤ len ∧ ty ≠ 0x0800) ∧
    (r.stopReason.code.toNat = 3 ↔ 14 ≤ len ∧ ty = 0x0800 ∧ (len < 34 ∨ hl < 20 ∨ 14 + hl > len)) ∧
    (r.stopReason.code.toNat = 4 ↔ ip ∧ p ≠ 6) ∧
    (r.stopReason.code.toNat = 5 ↔ ip ∧ p = 6 ∧ (l4 + 20 > len ∨ tl < 20 ∨ l4 + tl > len)) ∧
    (r.stopReason.code.toNat = 0 ↔ r.depth = .ethIpTcp)

/-- R212: the register record and the sum type carry the same, but for STOP_REASON. -/
def Obligations.DecodedFrameLosesOnlyTheStopReason : Prop :=
  ∀ (o : Config.MacOrder) (fb : Nat → Byte) (len : Nat),
    let r := decodeFrame o fb len
    (frameOf r.depth r.regs).regs = r.regs ∧ (frameOf r.depth r.regs).depth = r.depth

/-- R193: two frames' decodes are independent: HSTART from two states with the same buffer, length and parameters, whatever
earlier decodes left in them, leaves the same engine. -/
def Obligations.HstartForgetsEarlierFrames : Prop :=
  ∀ s t : State, s.busy = false → t.busy = false → s.len ≤ s.maxFrame → s.byte = t.byte → s.frameLen = t.frameLen →
    s.maxFrame = t.maxFrame → s.macOrder = t.macOrder →
    ∃ u v, exec .hstart s = .next u ∧ exec .hstart t = .next v ∧ SameEngine u v

/-- R196, R22: the host's reads cannot disturb a decode: a read leaves the engine the same, and from the same engine every
parse operation and selector leads to the same engine. -/
def Obligations.HostReadsDoNotDisturbTheEngine : Prop :=
  (∀ (s t : State) (r : Reg), exec (.hread r) s = .next t → SameEngine s t) ∧
  (∀ (s t : State) (a : Nat), exec (.hreadfb a) s = .next t → SameEngine s t) ∧
  (∀ (i : Instr) (s t s' : State), phaseOf i ≠ none → SameEngine s t → exec i s = .next s' →
    ∃ t', exec i t = .next t' ∧ SameEngine s' t')

/-! ## Host scripts -/

/-- R118, R303: SUBMIT F, from any state that is not BUSY, loads F and its length and starts the decode. -/
def Obligations.SubmitLoadsTheFrameAndStarts : Prop :=
  ∀ (f : List Byte) (rest : List HostAction) (s : State), f.length ≤ s.maxFrame → s.busy = false →
    s.script = submit f ++ rest →
    ∃ t, Sys2Proof.core.run (f.length + 2) s = .next t ∧ t.phase = .p1 ∧ t.len = f.length ∧
      (∀ k (h : k < f.length), t.byte k = f[k]) ∧ t.record = DecodeRecord.start ∧ t.script = rest

/-- R118, R211: DECODE F, from any state that is not BUSY, returns to the host the registers of decode(F), after its reads of
STATUS, each of which is 1 (BUSY) but the last, which is 2 (DONE). How the model interleaves HWAIT's reads with the engine
is its own choice (assumption log 1). -/
def Obligations.DecodeScriptReturnsTheDecodedFrame : Prop :=
  ∀ (f : List Byte) (s : State), f.length ≤ s.maxFrame → s.busy = false → s.script = decodeScript f →
    ∃ k t n, Sys2Proof.core.run k s = .next t ∧ t.script = [] ∧ t.phase = .done ∧
      t.record = decodeFrame s.macOrder (fun a => f.getD a 0) f.length ∧
      t.replies = s.replies ++ List.replicate n 1 ++ [2] ++ collected t

/-! ## The Renderer -/

/-- R249: a dump row of k ≤ 16 bytes is 53 + k characters: the four-digit offset, sixteen hex columns (a space and the
byte's two digits, or three spaces), one space, and at position 53 the ASCII column. hex2 and hex4 are the lower-case
hexadecimal digits, the most significant first (R243, R244). -/
def Obligations.DumpRowsAreAligned : Prop :=
  let digit := fun (n : Nat) => "0123456789abcdef".toList[n % 16]?
  (∀ (r : Nat) (row : List Byte), row.length ≤ 16 →
    (dumpRowText r row).length = 53 + row.length ∧ (dumpRowText r row).take 4 = hex4 (16 * r) ∧
    (∀ i, i < 16 → ((dumpRowText r row).drop (4 + 3 * i)).take 3 =
      match row[i]? with
      | some b => ' ' :: hex2 b
      | none => [' ', ' ', ' ']) ∧
    (dumpRowText r row)[52]? = some ' ' ∧ (dumpRowText r row).drop 53 = row.map asciiChar) ∧
  (∀ b : Byte, (hex2 b).map some = [digit (b.toNat / 16), digit b.toNat]) ∧
  (∀ n : Nat, (hex4 n).map some = [digit (n / 4096), digit (n / 256), digit (n / 16), digit n])

/-- R248, R249, R253: a payload of p bytes has ceil(min(p, 128) / 16) rows, at most 8. Row k opens with the offset 16k and
shows the payload bytes 16k to 16k + 15, as far as the first 128 bytes of the payload go, in its hex columns and in its
ASCII column; the rows show no other byte, and each ends with EOL in the dump. A row that is not the last has 69
characters. -/
def Obligations.DumpRowCounts : Prop :=
  ∀ payload : List Byte,
    (dumpRows payload).length = (min payload.length 128 + 15) / 16 ∧ (dumpRows payload).length ≤ 8 ∧
    (∀ k row, (dumpRows payload)[k]? = some row → row.take 4 = hex4 (16 * k) ∧
      row.length = 53 + min 16 (min payload.length 128 - 16 * k) ∧
      (k + 1 < (dumpRows payload).length → row.length = 69)) ∧
    (∀ j (h : j < payload.length), j < 128 → ∃ row, (dumpRows payload)[j / 16]? = some row ∧
      (row.drop (4 + 3 * (j % 16))).take 3 = ' ' :: hex2 payload[j]) ∧
    (dumpRows payload).flatMap (fun row => row.drop 53) = (payload.take 128).map asciiChar ∧
    dumpRows payload = dumpRows (payload.take 128) ∧
    (∀ p : RenderParams, dump p payload = (dumpRows payload).flatMap (fun row => row ++ p.eol))

/-- R250, R252: every character of a dump row is printable ASCII; a printable byte shows as itself and every other byte as a
full stop. -/
def Obligations.DumpIsPrintableAscii : Prop :=
  (∀ (payload : List Byte) (row : Text) (c : Char), row ∈ dumpRows payload → c ∈ row → 0x20 ≤ c.toNat ∧ c.toNat ≤ 0x7e) ∧
  (∀ b : Byte, 0x20 ≤ b.toNat → b.toNat ≤ 0x7e → (asciiChar b).toNat = b.toNat) ∧
  (∀ b : Byte, b.toNat < 0x20 ∨ 0x7e < b.toNat → asciiChar b = '.')

/-- R245, R247: a decimal numeral has the value it prints, has no leading zero, and only digits. -/
def Obligations.DecimalNumeralsAreExact : Prop :=
  ∀ n : Nat, n < 2 ^ 32 →
    (dec n).foldl (fun acc c => 10 * acc + (c.toNat - 48)) 0 = n ∧
    (∀ c ∈ dec n, 48 ≤ c.toNat ∧ c.toNat ≤ 57) ∧
    (n = 0 → dec n = ['0']) ∧ (0 < n → (dec n).head? ≠ some '0')

/-- R241, R242, R251: which parts the block of a state has: the sections by DEPTH, the dump exactly with FLAGS.PAY_NE, the
marker line exactly without an IPv4 layer. That the block is taken of the registers' current content in every phase, where R240
has them read while DONE, is the model's choice (assumption log 10). -/
def Obligations.RenderedPartsFollowTheDepth : Prop :=
  ∀ (p : RenderParams) (s : State),
    renderState p s =
      (if s.ethV then ethSection p s.regs.eth else []) ++ (if s.ipV then ipSection p s.regs.ip else []) ++
      (if s.tcpV then tcpSection p s.regs.tcp else []) ++ (if s.payNe then dump p s.payload else []) ++
      (if s.ipV then [] else markerLine p)

end
end

