-- ==== Sys2Proof/Laws/State.lean ====
section
/-! SUPPORT. One lemma per field per named update of the state, so that no proof unfolds a record update. -/

namespace Sys2Proof

/-- Every length up to `MAX_FRAME` fits `LEN_W` bits (R7). -/
theorem Config.lt_two_pow_lenWOf (m : Nat) : m < 2 ^ Config.lenWOf m := by
  unfold Config.lenWOf
  split
  · omega
  · exact Nat.lt_log2_self

/-- `LEN_W` is the least such width (R7). -/
theorem Config.lenWOf_le {m w : Nat} (h : m < 2 ^ w) : Config.lenWOf m ≤ w := by
  unfold Config.lenWOf
  split
  · omega
  · rename_i hm
    exact (Nat.log2_lt hm).2 h

/-- A length of at most `MAX_FRAME` fits `LEN_W` bits. -/
theorem Config.lt_two_pow_lenWOf_of_le {m n : Nat} (h : n ≤ m) : n < 2 ^ Config.lenWOf m :=
  Nat.lt_of_le_of_lt h (Config.lt_two_pow_lenWOf m)

/-- `LEN_W` at the default `MAX_FRAME` (R7). -/
theorem Config.lenWOf_default : Config.lenWOf Config.maxFrame = 17 := by decide

namespace Machine

@[simp] theorem raiseStop_fb (r : StopReason) (s : State) : (raiseStop r s).fb = s.fb := rfl
@[simp] theorem raiseStop_frameLen (r : StopReason) (s : State) : (raiseStop r s).frameLen = s.frameLen := rfl
@[simp] theorem raiseStop_regs (r : StopReason) (s : State) : (raiseStop r s).regs = s.regs := rfl
@[simp] theorem raiseStop_depth (r : StopReason) (s : State) : (raiseStop r s).depth = s.depth := rfl
@[simp] theorem raiseStop_stopReason (r : StopReason) (s : State) : (raiseStop r s).stopReason = r := rfl
@[simp] theorem raiseStop_phase (r : StopReason) (s : State) : (raiseStop r s).phase = .done := rfl
@[simp] theorem raiseStop_wIphl (r : StopReason) (s : State) : (raiseStop r s).wIphl = s.wIphl := rfl
@[simp] theorem raiseStop_wTcphl (r : StopReason) (s : State) : (raiseStop r s).wTcphl = s.wTcphl := rfl
@[simp] theorem raiseStop_maxFrame (r : StopReason) (s : State) : (raiseStop r s).maxFrame = s.maxFrame := rfl
@[simp] theorem raiseStop_macOrder (r : StopReason) (s : State) : (raiseStop r s).macOrder = s.macOrder := rfl
@[simp] theorem raiseStop_lenW (r : StopReason) (s : State) : (raiseStop r s).lenW = s.lenW := rfl
@[simp] theorem raiseStop_script (r : StopReason) (s : State) : (raiseStop r s).script = s.script := rfl
@[simp] theorem raiseStop_replies (r : StopReason) (s : State) : (raiseStop r s).replies = s.replies := rfl
@[simp] theorem raiseStop_resets (r : StopReason) (s : State) : (raiseStop r s).resets = s.resets := rfl
@[simp] theorem raiseStop_draws (r : StopReason) (s : State) : (raiseStop r s).draws = s.draws := rfl
@[simp] theorem raiseStop_len (r : StopReason) (s : State) : (raiseStop r s).len = s.len := rfl
@[simp] theorem raiseStop_byte (r : StopReason) (s : State) : (raiseStop r s).byte = s.byte := rfl
@[simp] theorem raiseStop_l4 (r : StopReason) (s : State) : (raiseStop r s).l4 = s.l4 := rfl

@[simp] theorem beginDecode_fb (s : State) : (beginDecode s).fb = s.fb := rfl
@[simp] theorem beginDecode_frameLen (s : State) : (beginDecode s).frameLen = s.frameLen := rfl
@[simp] theorem beginDecode_regs (s : State) : (beginDecode s).regs = Results.zero := rfl
@[simp] theorem beginDecode_depth (s : State) : (beginDecode s).depth = .none := rfl
@[simp] theorem beginDecode_stopReason (s : State) : (beginDecode s).stopReason = .none := rfl
@[simp] theorem beginDecode_phase (s : State) : (beginDecode s).phase = .p1 := rfl
@[simp] theorem beginDecode_wIphl (s : State) : (beginDecode s).wIphl = 0 := rfl
@[simp] theorem beginDecode_wTcphl (s : State) : (beginDecode s).wTcphl = 0 := rfl
@[simp] theorem beginDecode_maxFrame (s : State) : (beginDecode s).maxFrame = s.maxFrame := rfl
@[simp] theorem beginDecode_macOrder (s : State) : (beginDecode s).macOrder = s.macOrder := rfl
@[simp] theorem beginDecode_lenW (s : State) : (beginDecode s).lenW = s.lenW := rfl
@[simp] theorem beginDecode_script (s : State) : (beginDecode s).script = s.script := rfl
@[simp] theorem beginDecode_replies (s : State) : (beginDecode s).replies = s.replies := rfl
@[simp] theorem beginDecode_resets (s : State) : (beginDecode s).resets = s.resets := rfl
@[simp] theorem beginDecode_draws (s : State) : (beginDecode s).draws = s.draws := rfl
@[simp] theorem beginDecode_len (s : State) : (beginDecode s).len = s.len := rfl
@[simp] theorem beginDecode_byte (s : State) : (beginDecode s).byte = s.byte := rfl

@[simp] theorem resetEngine_fb (s : State) : (resetEngine s).fb = [] := rfl
@[simp] theorem resetEngine_frameLen (s : State) : (resetEngine s).frameLen = 0 := rfl
@[simp] theorem resetEngine_regs (s : State) : (resetEngine s).regs = Results.zero := rfl
@[simp] theorem resetEngine_depth (s : State) : (resetEngine s).depth = .none := rfl
@[simp] theorem resetEngine_stopReason (s : State) : (resetEngine s).stopReason = .none := rfl
@[simp] theorem resetEngine_phase (s : State) : (resetEngine s).phase = .idle := rfl
@[simp] theorem resetEngine_wIphl (s : State) : (resetEngine s).wIphl = 0 := rfl
@[simp] theorem resetEngine_wTcphl (s : State) : (resetEngine s).wTcphl = 0 := rfl
@[simp] theorem resetEngine_maxFrame (s : State) : (resetEngine s).maxFrame = s.maxFrame := rfl
@[simp] theorem resetEngine_macOrder (s : State) : (resetEngine s).macOrder = s.macOrder := rfl
@[simp] theorem resetEngine_lenW (s : State) : (resetEngine s).lenW = s.lenW := rfl
@[simp] theorem resetEngine_script (s : State) : (resetEngine s).script = s.script := rfl
@[simp] theorem resetEngine_replies (s : State) : (resetEngine s).replies = s.replies := rfl
@[simp] theorem resetEngine_resets (s : State) : (resetEngine s).resets = s.resets + 1 := rfl
@[simp] theorem resetEngine_draws (s : State) : (resetEngine s).draws = s.draws := rfl

@[simp] theorem memWrite_fb (a : Nat) (b : Byte) (s : State) : (memWrite a b s).fb = Memory.write s.fb a b := rfl
@[simp] theorem memWrite_frameLen (a : Nat) (b : Byte) (s : State) : (memWrite a b s).frameLen = s.frameLen := rfl
@[simp] theorem memWrite_regs (a : Nat) (b : Byte) (s : State) : (memWrite a b s).regs = s.regs := rfl
@[simp] theorem memWrite_depth (a : Nat) (b : Byte) (s : State) : (memWrite a b s).depth = s.depth := rfl
@[simp] theorem memWrite_stopReason (a : Nat) (b : Byte) (s : State) : (memWrite a b s).stopReason = s.stopReason := rfl
@[simp] theorem memWrite_phase (a : Nat) (b : Byte) (s : State) : (memWrite a b s).phase = s.phase := rfl
@[simp] theorem memWrite_wIphl (a : Nat) (b : Byte) (s : State) : (memWrite a b s).wIphl = s.wIphl := rfl
@[simp] theorem memWrite_wTcphl (a : Nat) (b : Byte) (s : State) : (memWrite a b s).wTcphl = s.wTcphl := rfl
@[simp] theorem memWrite_maxFrame (a : Nat) (b : Byte) (s : State) : (memWrite a b s).maxFrame = s.maxFrame := rfl
@[simp] theorem memWrite_macOrder (a : Nat) (b : Byte) (s : State) : (memWrite a b s).macOrder = s.macOrder := rfl
@[simp] theorem memWrite_lenW (a : Nat) (b : Byte) (s : State) : (memWrite a b s).lenW = s.lenW := rfl
@[simp] theorem memWrite_script (a : Nat) (b : Byte) (s : State) : (memWrite a b s).script = s.script := rfl
@[simp] theorem memWrite_replies (a : Nat) (b : Byte) (s : State) : (memWrite a b s).replies = s.replies := rfl
@[simp] theorem memWrite_resets (a : Nat) (b : Byte) (s : State) : (memWrite a b s).resets = s.resets := rfl
@[simp] theorem memWrite_draws (a : Nat) (b : Byte) (s : State) : (memWrite a b s).draws = s.draws := rfl
@[simp] theorem memWrite_len (a : Nat) (b : Byte) (s : State) : (memWrite a b s).len = s.len := rfl
@[simp] theorem memWrite_busy (a : Nat) (b : Byte) (s : State) : (memWrite a b s).busy = s.busy := rfl
@[simp] theorem memWrite_l4 (a : Nat) (b : Byte) (s : State) : (memWrite a b s).l4 = s.l4 := rfl
@[simp] theorem memWrite_record (a : Nat) (b : Byte) (s : State) : (memWrite a b s).record = s.record := rfl

@[simp] theorem reply_fb (v : Nat) (s : State) : (reply v s).fb = s.fb := rfl
@[simp] theorem reply_frameLen (v : Nat) (s : State) : (reply v s).frameLen = s.frameLen := rfl
@[simp] theorem reply_regs (v : Nat) (s : State) : (reply v s).regs = s.regs := rfl
@[simp] theorem reply_depth (v : Nat) (s : State) : (reply v s).depth = s.depth := rfl
@[simp] theorem reply_stopReason (v : Nat) (s : State) : (reply v s).stopReason = s.stopReason := rfl
@[simp] theorem reply_phase (v : Nat) (s : State) : (reply v s).phase = s.phase := rfl
@[simp] theorem reply_wIphl (v : Nat) (s : State) : (reply v s).wIphl = s.wIphl := rfl
@[simp] theorem reply_wTcphl (v : Nat) (s : State) : (reply v s).wTcphl = s.wTcphl := rfl
@[simp] theorem reply_maxFrame (v : Nat) (s : State) : (reply v s).maxFrame = s.maxFrame := rfl
@[simp] theorem reply_macOrder (v : Nat) (s : State) : (reply v s).macOrder = s.macOrder := rfl
@[simp] theorem reply_lenW (v : Nat) (s : State) : (reply v s).lenW = s.lenW := rfl
@[simp] theorem reply_script (v : Nat) (s : State) : (reply v s).script = s.script := rfl
@[simp] theorem reply_replies (v : Nat) (s : State) : (reply v s).replies = s.replies ++ [v] := rfl
@[simp] theorem reply_resets (v : Nat) (s : State) : (reply v s).resets = s.resets := rfl
@[simp] theorem reply_draws (v : Nat) (s : State) : (reply v s).draws = s.draws := rfl
@[simp] theorem reply_len (v : Nat) (s : State) : (reply v s).len = s.len := rfl
@[simp] theorem reply_byte (v : Nat) (s : State) : (reply v s).byte = s.byte := rfl
@[simp] theorem reply_busy (v : Nat) (s : State) : (reply v s).busy = s.busy := rfl
@[simp] theorem reply_l4 (v : Nat) (s : State) : (reply v s).l4 = s.l4 := rfl
@[simp] theorem reply_record (v : Nat) (s : State) : (reply v s).record = s.record := rfl

@[simp] theorem putEth_fb (x y : Mac) (ty : BitVec 16) (s : State) : (putEth x y ty s).fb = s.fb := rfl
@[simp] theorem putEth_frameLen (x y : Mac) (ty : BitVec 16) (s : State) : (putEth x y ty s).frameLen = s.frameLen := rfl
@[simp] theorem putEth_depth (x y : Mac) (ty : BitVec 16) (s : State) : (putEth x y ty s).depth = .eth := rfl
@[simp] theorem putEth_stopReason (x y : Mac) (ty : BitVec 16) (s : State) : (putEth x y ty s).stopReason = s.stopReason := rfl
@[simp] theorem putEth_phase (x y : Mac) (ty : BitVec 16) (s : State) : (putEth x y ty s).phase = .p3 := rfl
@[simp] theorem putEth_wIphl (x y : Mac) (ty : BitVec 16) (s : State) : (putEth x y ty s).wIphl = s.wIphl := rfl
@[simp] theorem putEth_wTcphl (x y : Mac) (ty : BitVec 16) (s : State) : (putEth x y ty s).wTcphl = s.wTcphl := rfl
@[simp] theorem putEth_maxFrame (x y : Mac) (ty : BitVec 16) (s : State) : (putEth x y ty s).maxFrame = s.maxFrame := rfl
@[simp] theorem putEth_macOrder (x y : Mac) (ty : BitVec 16) (s : State) : (putEth x y ty s).macOrder = s.macOrder := rfl
@[simp] theorem putEth_lenW (x y : Mac) (ty : BitVec 16) (s : State) : (putEth x y ty s).lenW = s.lenW := rfl
@[simp] theorem putEth_script (x y : Mac) (ty : BitVec 16) (s : State) : (putEth x y ty s).script = s.script := rfl
@[simp] theorem putEth_replies (x y : Mac) (ty : BitVec 16) (s : State) : (putEth x y ty s).replies = s.replies := rfl
@[simp] theorem putEth_resets (x y : Mac) (ty : BitVec 16) (s : State) : (putEth x y ty s).resets = s.resets := rfl
@[simp] theorem putEth_draws (x y : Mac) (ty : BitVec 16) (s : State) : (putEth x y ty s).draws = s.draws := rfl
@[simp] theorem putEth_len (x y : Mac) (ty : BitVec 16) (s : State) : (putEth x y ty s).len = s.len := rfl
@[simp] theorem putEth_byte (x y : Mac) (ty : BitVec 16) (s : State) : (putEth x y ty s).byte = s.byte := rfl
@[simp] theorem putEth_l4 (x y : Mac) (ty : BitVec 16) (s : State) : (putEth x y ty s).l4 = s.l4 := rfl

@[simp] theorem putIp_fb (v p : Byte) (x y : BitVec 32) (s : State) : (putIp v p x y s).fb = s.fb := rfl
@[simp] theorem putIp_frameLen (v p : Byte) (x y : BitVec 32) (s : State) : (putIp v p x y s).frameLen = s.frameLen := rfl
@[simp] theorem putIp_depth (v p : Byte) (x y : BitVec 32) (s : State) : (putIp v p x y s).depth = .ethIp := rfl
@[simp] theorem putIp_stopReason (v p : Byte) (x y : BitVec 32) (s : State) : (putIp v p x y s).stopReason = s.stopReason := rfl
@[simp] theorem putIp_phase (v p : Byte) (x y : BitVec 32) (s : State) : (putIp v p x y s).phase = .p6 := rfl
@[simp] theorem putIp_wIphl (v p : Byte) (x y : BitVec 32) (s : State) : (putIp v p x y s).wIphl = s.wIphl := rfl
@[simp] theorem putIp_wTcphl (v p : Byte) (x y : BitVec 32) (s : State) : (putIp v p x y s).wTcphl = s.wTcphl := rfl
@[simp] theorem putIp_maxFrame (v p : Byte) (x y : BitVec 32) (s : State) : (putIp v p x y s).maxFrame = s.maxFrame := rfl
@[simp] theorem putIp_macOrder (v p : Byte) (x y : BitVec 32) (s : State) : (putIp v p x y s).macOrder = s.macOrder := rfl
@[simp] theorem putIp_lenW (v p : Byte) (x y : BitVec 32) (s : State) : (putIp v p x y s).lenW = s.lenW := rfl
@[simp] theorem putIp_script (v p : Byte) (x y : BitVec 32) (s : State) : (putIp v p x y s).script = s.script := rfl
@[simp] theorem putIp_replies (v p : Byte) (x y : BitVec 32) (s : State) : (putIp v p x y s).replies = s.replies := rfl
@[simp] theorem putIp_resets (v p : Byte) (x y : BitVec 32) (s : State) : (putIp v p x y s).resets = s.resets := rfl
@[simp] theorem putIp_draws (v p : Byte) (x y : BitVec 32) (s : State) : (putIp v p x y s).draws = s.draws := rfl
@[simp] theorem putIp_len (v p : Byte) (x y : BitVec 32) (s : State) : (putIp v p x y s).len = s.len := rfl
@[simp] theorem putIp_byte (v p : Byte) (x y : BitVec 32) (s : State) : (putIp v p x y s).byte = s.byte := rfl
@[simp] theorem putIp_l4 (v p : Byte) (x y : BitVec 32) (s : State) : (putIp v p x y s).l4 = s.l4 := rfl

@[simp] theorem putTcp_fb (p q : BitVec 16) (x y : BitVec 32) (s : State) : (putTcp p q x y s).fb = s.fb := rfl
@[simp] theorem putTcp_frameLen (p q : BitVec 16) (x y : BitVec 32) (s : State) : (putTcp p q x y s).frameLen = s.frameLen := rfl
@[simp] theorem putTcp_depth (p q : BitVec 16) (x y : BitVec 32) (s : State) : (putTcp p q x y s).depth = .ethIpTcp := rfl
@[simp] theorem putTcp_stopReason (p q : BitVec 16) (x y : BitVec 32) (s : State) : (putTcp p q x y s).stopReason = .none := rfl
@[simp] theorem putTcp_phase (p q : BitVec 16) (x y : BitVec 32) (s : State) : (putTcp p q x y s).phase = .done := rfl
@[simp] theorem putTcp_wIphl (p q : BitVec 16) (x y : BitVec 32) (s : State) : (putTcp p q x y s).wIphl = s.wIphl := rfl
@[simp] theorem putTcp_wTcphl (p q : BitVec 16) (x y : BitVec 32) (s : State) : (putTcp p q x y s).wTcphl = s.wTcphl := rfl
@[simp] theorem putTcp_maxFrame (p q : BitVec 16) (x y : BitVec 32) (s : State) : (putTcp p q x y s).maxFrame = s.maxFrame := rfl
@[simp] theorem putTcp_macOrder (p q : BitVec 16) (x y : BitVec 32) (s : State) : (putTcp p q x y s).macOrder = s.macOrder := rfl
@[simp] theorem putTcp_lenW (p q : BitVec 16) (x y : BitVec 32) (s : State) : (putTcp p q x y s).lenW = s.lenW := rfl
@[simp] theorem putTcp_script (p q : BitVec 16) (x y : BitVec 32) (s : State) : (putTcp p q x y s).script = s.script := rfl
@[simp] theorem putTcp_replies (p q : BitVec 16) (x y : BitVec 32) (s : State) : (putTcp p q x y s).replies = s.replies := rfl
@[simp] theorem putTcp_resets (p q : BitVec 16) (x y : BitVec 32) (s : State) : (putTcp p q x y s).resets = s.resets := rfl
@[simp] theorem putTcp_draws (p q : BitVec 16) (x y : BitVec 32) (s : State) : (putTcp p q x y s).draws = s.draws := rfl
@[simp] theorem putTcp_len (p q : BitVec 16) (x y : BitVec 32) (s : State) : (putTcp p q x y s).len = s.len := rfl
@[simp] theorem putTcp_byte (p q : BitVec 16) (x y : BitVec 32) (s : State) : (putTcp p q x y s).byte = s.byte := rfl
@[simp] theorem putTcp_l4 (p q : BitVec 16) (x y : BitVec 32) (s : State) : (putTcp p q x y s).l4 = s.l4 := rfl

@[simp] theorem raiseStop_record (r : StopReason) (s : State) : (raiseStop r s).record = s.record.stoppedBy r := rfl
@[simp] theorem beginDecode_record (s : State) : (beginDecode s).record = DecodeRecord.start := rfl
@[simp] theorem resetEngine_record (s : State) : (resetEngine s).record = DecodeRecord.start := rfl
@[simp] theorem putEth_regs (x y : Mac) (ty : BitVec 16) (s : State) :
    (putEth x y ty s).regs =
      { s.regs with ethDst := dstMacOf s.macOrder x y, ethSrc := srcMacOf s.macOrder x y, ethType := ty } := rfl
@[simp] theorem putIp_regs (v p : Byte) (x y : BitVec 32) (s : State) :
    (putIp v p x y s).regs =
      { s.regs with ipVihl := v, ipHlen := s.wIphl, ipProto := p, ipSrc := x, ipDst := y } := rfl
@[simp] theorem putTcp_regs (p q : BitVec 16) (x y : BitVec 32) (s : State) :
    (putTcp p q x y s).regs =
      { s.regs with
        tcpSport := p, tcpDport := q, tcpSeq := x, tcpAck := y, tcpDoff := doffOfHdrLen s.wTcphl
        payOff := s.l4 + s.wTcphl.toNat
        payLen := s.len - (s.l4 + s.wTcphl.toNat) } := rfl

/-- The byte reads depend on FB and on the count of resets alone. -/
theorem byte_congr {s t : State} (hf : s.fb = t.fb) (hr : s.resets = t.resets) : s.byte = t.byte := by
  funext a; simp [State.byte, hf, hr]

/-- BUSY in terms of PHASE (R32). -/
theorem busy_eq_false_iff (s : State) : s.busy = false ↔ s.phase = .idle ∨ s.phase = .done := by
  unfold State.busy; cases s.phase <;> simp [Phase.isBusy]

/-- DONE in terms of PHASE (R32). -/
@[simp] theorem isDone_iff (s : State) : s.isDone = true ↔ s.phase = .done := by
  unfold State.isDone; cases s.phase <;> simp [Phase.isDone]

end Machine
end Sys2Proof
end

