-- ==== Sys2Proof/Laws/Ops.lean ====
section
/-! SUPPORT. What each shared operation can do, said once. -/

namespace Sys2Proof.Machine

/-- A read inside the frame answers its value. -/
theorem guardRead_ok {α : Type} {addr n : Nat} {s : State} (h : addr + n ≤ s.len) (v : α) :
    guardRead addr n s v = .ok v := if_pos h

/-- A read past the frame raises OutOfRangeRead. -/
theorem guardRead_error {α : Type} {addr n : Nat} {s : State} (h : s.len < addr + n) (v : α) :
    guardRead addr n s v = .error (.outOfRangeRead addr n) := if_neg (by omega)

/-- What MemRead's guard can answer. -/
theorem guardRead_eq_ok_iff {α : Type} {addr n : Nat} {s : State} {v w : α} :
    guardRead addr n s v = .ok w ↔ addr + n ≤ s.len ∧ v = w := by
  unfold guardRead; split <;> simp_all

theorem memRead8_ok {addr : Nat} {s : State} (h : addr + 1 ≤ s.len) : memRead8 addr s = .ok (s.byte addr) :=
  guardRead_ok h _

theorem memRead16_ok {addr : Nat} {s : State} (h : addr + 2 ≤ s.len) : memRead16 addr s = .ok (be16 s.byte addr) :=
  guardRead_ok h _

theorem memRead32_ok {addr : Nat} {s : State} (h : addr + 4 ≤ s.len) : memRead32 addr s = .ok (be32 s.byte addr) :=
  guardRead_ok h _

theorem memRead48_ok {addr : Nat} {s : State} (h : addr + 6 ≤ s.len) : memRead48 addr s = .ok (be48 s.byte addr) :=
  guardRead_ok h _

/-- When a phase's operation runs. -/
theorem whenPhase_next {p : Phase} {s t : State} {r : Except Fault State} :
    whenPhase p s r = .next t ↔ s.phase = p ∧ r = .ok t := by
  unfold whenPhase
  split
  · rename_i h
    cases r <;> simp [h]
  · rename_i h
    simp [h]

/-- When a phase's operation faults. -/
theorem whenPhase_fault {p : Phase} {s : State} {r : Except Fault State} {f : Fault} :
    whenPhase p s r = .fault f ↔ s.phase = p ∧ r = .error f := by
  unfold whenPhase
  split
  · rename_i h
    cases r <;> simp [h]
  · rename_i h
    simp [h]

/-- When a selector applies. -/
theorem whenSelected_next {p : Phase} {s t u : State} {r : Except Fault Bool} :
    whenSelected p s r u = .next t ↔ s.phase = p ∧ r = .ok true ∧ u = t := by
  unfold whenSelected
  split
  · rename_i h
    split <;> simp_all
  · rename_i h
    simp [h]

/-- When a selector's test reads past the frame. -/
theorem whenSelected_fault {p : Phase} {s u : State} {r : Except Fault Bool} {f : Fault} :
    whenSelected p s r u = .fault f ↔ s.phase = p ∧ r = .error f := by
  unfold whenSelected
  split
  · rename_i h
    split <;> simp_all
  · rename_i h
    simp [h]

/-- Everything a step that goes on can do: run the fetched instruction, or pass. -/
theorem step_next {s t : State} (h : step s = .next t) :
    (∃ i u, fetch s = .run i u ∧ exec i u = .next t) ∨ fetch s = .pass t := by
  unfold step at h
  cases hf : fetch s with
  | run i u => rw [hf] at h; exact .inl ⟨i, u, rfl, h⟩
  | pass u => rw [hf] at h; cases h; exact .inr rfl
  | stop r => rw [hf] at h; cases h

/-- A step faults only through its instruction. -/
theorem step_fault {s : State} {f : Fault} (h : step s = .fault f) : ∃ i u, fetch s = .run i u ∧ exec i u = .fault f := by
  unfold step at h
  cases hf : fetch s with
  | run i u => rw [hf] at h; exact ⟨i, u, rfl, h⟩
  | pass u => rw [hf] at h; cases h
  | stop r => rw [hf] at h; cases h

/-- Everything fetch can answer: the state it runs from differs in the host's script alone, and the instruction is the
parse operation PHASE names or a host command. -/
theorem fetch_run {s u : State} {i : Instr} (h : fetch s = .run i u) :
    (∃ l, u = { s with script := l }) ∧
      (decode s.maxFrame (.phase s.phase.code) = .instr i ∨ (∃ a, decode s.maxFrame (.access a) = .instr i) ∨ i = .hread .status) := by
  have engine {v : State} (h : fetchEngine v = .run i u) : u = v ∧ decode v.maxFrame (.phase v.phase.code) = .instr i := by
    unfold fetchEngine at h
    cases hd : decode v.maxFrame (.phase v.phase.code) with
    | instr j => rw [hd] at h; cases h; exact ⟨rfl, rfl⟩
    | rejected r => rw [hd] at h; cases h
  unfold fetch at h
  split at h
  · obtain ⟨rfl, hd⟩ := engine h
    exact ⟨⟨u.script, rfl⟩, .inl hd⟩
  · rename_i a rest _
    unfold fetchAccess at h
    split at h <;> cases h
    exact ⟨⟨rest, rfl⟩, .inr (.inl ⟨a, by assumption⟩)⟩
  · rename_i rest _
    split at h
    · obtain ⟨rfl, hd⟩ := engine h
      exact ⟨⟨rest, rfl⟩, .inl hd⟩
    · cases h
  · cases h
    exact ⟨⟨_, rfl⟩, .inr (.inr rfl)⟩

/-- A pass changes the host's script alone. -/
theorem fetch_pass {s t : State} (h : fetch s = .pass t) : ∃ l, t = { s with script := l } := by
  unfold fetch at h
  split at h
  · unfold fetchEngine at h
    split at h <;> cases h
  · rename_i a rest _
    unfold fetchAccess at h
    split at h <;> cases h
    exact ⟨rest, rfl⟩
  · rename_i rest _
    split at h
    · unfold fetchEngine at h
      split at h <;> cases h
    · cases h
      exact ⟨rest, rfl⟩
  · cases h

/-- The free value of a read has the register's width (U4). -/
theorem freeReading_lt (m : Nat) (r : Reg) (draw : Nat) : freeReading m r draw < 2 ^ regWidth m r :=
  Nat.mod_lt _ (Nat.two_pow_pos _)

end Sys2Proof.Machine
end

