-- ==== Sys2Proof/Laws/Bits.lean ====
section
/-! SUPPORT. The bit fields as numbers. -/

namespace Sys2Proof

/-- The `ihl` nibble as a number (R96). -/
@[simp] theorem ihlOf_toNat (b : Byte) : (ihlOf b).toNat = b.toNat % 16 := by simp [ihlOf]

/-- The `data_offset` nibble as a number (R101). -/
theorem dataOffsetOf_toNat (b : Byte) : (dataOffsetOf b).toNat = b.toNat / 16 := by
  have := b.isLt
  simp only [dataOffsetOf, BitVec.extractLsb'_toNat, Nat.shiftRight_eq_div_pow]
  omega

/-- A header length is four times its nibble; nothing is lost (R97, R102, R220). -/
@[simp] theorem hdrLenOf_toNat (n : Nibble) : (hdrLenOf n).toNat = 4 * n.toNat := by
  have := n.isLt
  simp only [hdrLenOf, BitVec.toNat_shiftLeft, BitVec.toNat_setWidth, Nat.shiftLeft_eq]
  omega

theorem ihlOf_append (v n : Nibble) : ihlOf (v ++ n) = n := by
  revert v n; decide

theorem dataOffsetOf_append (n r : Nibble) : dataOffsetOf (n ++ r) = n := by
  revert n r; decide

/-- The legal `ihl` nibbles with the bound as a numeral (R97). -/
theorem decodeIhl_eq (n : Nibble) :
    decodeIhl n = if 5 ≤ n.toNat then .instr (.ihlLegal n) else .rejected (.illegalIhl n) := rfl

/-- The legal `data_offset` nibbles with the bound as a numeral (R102). -/
theorem decodeDataOffset_eq (n : Nibble) :
    decodeDataOffset n = if 5 ≤ n.toNat then .instr (.dataOffsetLegal n) else .rejected (.illegalDataOffset n) := rfl

theorem Instr.wf_ihlLegal (m : Nat) (n : Nibble) : (Instr.ihlLegal n).wf m = decide (5 ≤ n.toNat) := rfl

theorem Instr.wf_dataOffsetLegal (m : Nat) (n : Nibble) : (Instr.dataOffsetLegal n).wf m = decide (5 ≤ n.toNat) := rfl

/-- A register's number names it. -/
@[simp] theorem Reg.ofNumber_number (r : Reg) : Reg.ofNumber r.number = some r := by cases r <;> rfl

namespace Machine

/-- `be16` as a number (R64). -/
theorem be16_toNat (fb : Nat → Byte) (a : Nat) : (be16 fb a).toNat = (fb a).toNat * 256 + (fb (a + 1)).toNat := by
  have h1 := (fb (a + 1)).isLt
  rw [be16, BitVec.toNat_append, ← Nat.shiftLeft_add_eq_or_of_lt h1, Nat.shiftLeft_eq]

/-- `TCP_DOFF = W_TCPHL[5:2]` undoes the multiplication by 4 (R220). -/
@[simp] theorem doffOfHdrLen_hdrLenOf (n : Nibble) : doffOfHdrLen (hdrLenOf n) = n := by
  revert n; decide

theorem ipHdrLen_eq (fb : Nat → Byte) : ipHdrLen fb = (hdrLenOf (ihlOf (fb 14))).toNat := by
  rw [hdrLenOf_toNat]; rfl

theorem tcpHdrLen_eq (fb : Nat → Byte) :
    tcpHdrLen fb = (hdrLenOf (dataOffsetOf (fb (14 + ipHdrLen fb + 12)))).toNat := by
  rw [hdrLenOf_toNat]; rfl

/-- An IPv4 header length is at most 60 (R97). -/
theorem ipHdrLen_le (fb : Nat → Byte) : ipHdrLen fb ≤ 60 := by
  have := (ihlOf (fb 14)).isLt
  unfold ipHdrLen; omega

/-- A TCP header length is at most 60 (R102). -/
theorem tcpHdrLen_le (fb : Nat → Byte) : tcpHdrLen fb ≤ 60 := by
  have := (dataOffsetOf (fb (14 + ipHdrLen fb + 12))).isLt
  unfold tcpHdrLen; omega

end Machine
end Sys2Proof
end

