-- ==== Sys2Proof/Laws/Exec.lean ====
section
/-! SUPPORT. Inversion: for each instruction, everything that holds when it answers a next state, and when it faults. The
later lemmas cite these and do not unfold a meaning. -/

namespace Sys2Proof.Machine

theorem exec_chketh_next {s t : State} : exec .chketh s = .next t ↔ s.phase = .p1 ∧ t = checkEth s := by
  rw [exec, execChketh, whenPhase_next]; simp [eq_comm]

theorem exec_exteth_next {s t : State} :
    exec .exteth s = .next t ↔
      s.phase = .p2 ∧ 14 ≤ s.len ∧ t = putEth (be48 s.byte 0) (be48 s.byte 6) (be16 s.byte 12) s := by
  rw [exec, execExteth, whenPhase_next]
  refine and_congr_right fun _ => ?_
  by_cases h : 14 ≤ s.len
  · rw [memRead48_ok (by omega), memRead48_ok (by omega), memRead16_ok (by omega)]
    exact ⟨fun e => ⟨h, by cases e; rfl⟩, fun e => by rw [e.2]; rfl⟩
  · refine ⟨fun e => ?_, fun e => absurd e.1 h⟩
    by_cases h6 : 6 ≤ s.len
    · rw [memRead48_ok (by omega)] at e
      by_cases h12 : 12 ≤ s.len
      · rw [memRead48_ok (by omega), memRead16, guardRead_error (by omega)] at e; cases e
      · rw [memRead48, guardRead_error (by omega)] at e; cases e
    · rw [memRead48, guardRead_error (by omega)] at e; cases e

theorem exec_selip_next {s t : State} : exec .selip s = .next t ↔ s.phase = .p3 ∧ t = selectIp s := by
  rw [exec, execSelip, whenPhase_next]; simp [eq_comm]

theorem exec_ethertypeIpv4_next {s t : State} :
    exec .ethertypeIpv4 s = .next t ↔ s.phase = .p3 ∧ s.regs.ethType = 0x0800 ∧ t = acceptIpv4 s := by
  rw [exec, execEthertypeIpv4, whenSelected_next]; simp [eq_comm]

theorem exec_decihl_next {s t : State} :
    exec .decihl s = .next t ↔ s.phase = .p4 ∧ 15 ≤ s.len ∧ t = acceptIhl (ihlOf (s.byte 14)) s := by
  rw [exec, execDecihl, whenPhase_next]
  refine and_congr_right fun _ => ?_
  by_cases h : 14 + 1 ≤ s.len
  · rw [memRead8_ok h]
    exact ⟨fun e => ⟨h, by cases e; rfl⟩, fun e => by rw [e.2]; rfl⟩
  · rw [memRead8, guardRead_error (Nat.lt_of_not_le h)]
    exact ⟨fun e => (by cases e), fun e => absurd e.1 h⟩

theorem exec_ihlLegal_next {s t : State} {n : Nibble} :
    exec (.ihlLegal n) s = .next t ↔
      s.phase = .p4 ∧ 15 ≤ s.len ∧ ihlOf (s.byte 14) = n ∧ t = acceptIhl n s := by
  rw [exec, execIhlLegal, whenSelected_next]
  refine and_congr_right fun _ => ?_
  by_cases h : 14 + 1 ≤ s.len
  · rw [memRead8_ok h]
    simp [bind, Except.bind, pure, Except.pure, h, eq_comm]
  · rw [memRead8, guardRead_error (Nat.lt_of_not_le h)]
    exact ⟨fun e => (by cases e.1), fun e => absurd e.1 h⟩

theorem exec_extip_next {s t : State} :
    exec .extip s = .next t ↔
      s.phase = .p5 ∧ 34 ≤ s.len ∧ t = putIp (s.byte 14) (s.byte 23) (be32 s.byte 26) (be32 s.byte 30) s := by
  rw [exec, execExtip, whenPhase_next]
  refine and_congr_right fun _ => ?_
  by_cases h : 30 + 4 ≤ s.len
  · rw [memRead8_ok (show 14 + 1 ≤ s.len by omega), memRead8_ok (show 23 + 1 ≤ s.len by omega),
      memRead32_ok (show 26 + 4 ≤ s.len by omega), memRead32_ok h]
    exact ⟨fun e => ⟨h, by cases e; rfl⟩, fun e => by rw [e.2]; rfl⟩
  · refine ⟨fun e => ?_, fun e => absurd e.1 h⟩
    by_cases h1 : 14 + 1 ≤ s.len
    · rw [memRead8_ok h1] at e
      by_cases h2 : 23 + 1 ≤ s.len
      · rw [memRead8_ok h2] at e
        by_cases h3 : 26 + 4 ≤ s.len
        · rw [memRead32_ok h3, memRead32, guardRead_error (Nat.lt_of_not_le h)] at e; cases e
        · rw [memRead32, guardRead_error (Nat.lt_of_not_le h3)] at e; cases e
      · rw [memRead8, guardRead_error (Nat.lt_of_not_le h2)] at e; cases e
    · rw [memRead8, guardRead_error (Nat.lt_of_not_le h1)] at e; cases e

theorem exec_seltcp_next {s t : State} : exec .seltcp s = .next t ↔ s.phase = .p6 ∧ t = selectTcp s := by
  rw [exec, execSeltcp, whenPhase_next]; simp [eq_comm]

theorem exec_protocolTcp_next {s t : State} :
    exec .protocolTcp s = .next t ↔ s.phase = .p6 ∧ s.regs.ipProto = 6 ∧ t = acceptTcp s := by
  rw [exec, execProtocolTcp, whenSelected_next]; simp [eq_comm]

theorem exec_decdoff_next {s t : State} :
    exec .decdoff s = .next t ↔
      s.phase = .p7 ∧ s.l4 + 13 ≤ s.len ∧ t = acceptDoff (dataOffsetOf (s.byte (s.l4 + 12))) s := by
  rw [exec, execDecdoff, whenPhase_next]
  refine and_congr_right fun _ => ?_
  by_cases h : s.l4 + 13 ≤ s.len
  · rw [memRead8_ok h]
    exact ⟨fun e => ⟨h, by cases e; rfl⟩, fun e => by rw [e.2]; rfl⟩
  · rw [memRead8, guardRead_error (by omega)]
    exact ⟨fun e => (by cases e), fun e => absurd e.1 h⟩

theorem exec_dataOffsetLegal_next {s t : State} {n : Nibble} :
    exec (.dataOffsetLegal n) s = .next t ↔
      s.phase = .p7 ∧ s.l4 + 13 ≤ s.len ∧ dataOffsetOf (s.byte (s.l4 + 12)) = n ∧ t = acceptDoff n s := by
  rw [exec, execDataOffsetLegal, whenSelected_next]
  refine and_congr_right fun _ => ?_
  by_cases h : s.l4 + 13 ≤ s.len
  · rw [memRead8_ok h]
    simp [bind, Except.bind, pure, Except.pure, h, eq_comm]
  · rw [memRead8, guardRead_error (by omega)]
    exact ⟨fun e => (by cases e.1), fun e => absurd e.1 h⟩

theorem exec_exttcp_next {s t : State} :
    exec .exttcp s = .next t ↔
      s.phase = .p8 ∧ s.l4 + 12 ≤ s.len ∧
        t = putTcp (be16 s.byte s.l4) (be16 s.byte (s.l4 + 2)) (be32 s.byte (s.l4 + 4)) (be32 s.byte (s.l4 + 8)) s := by
  rw [exec, execExttcp, whenPhase_next]
  refine and_congr_right fun _ => ?_
  by_cases h : s.l4 + 12 ≤ s.len
  · rw [memRead16_ok (by omega), memRead16_ok (by omega), memRead32_ok (by omega), memRead32_ok (by omega)]
    exact ⟨fun e => ⟨h, by cases e; rfl⟩, fun e => by rw [e.2]; rfl⟩
  · refine ⟨fun e => ?_, fun e => absurd e.1 h⟩
    by_cases h1 : s.l4 + 2 ≤ s.len
    · rw [memRead16_ok h1] at e
      by_cases h2 : s.l4 + 4 ≤ s.len
      · rw [memRead16_ok (by omega)] at e
        by_cases h3 : s.l4 + 8 ≤ s.len
        · rw [memRead32_ok (by omega), memRead32, guardRead_error (by omega)] at e; cases e
        · rw [memRead32, guardRead_error (by omega)] at e; cases e
      · rw [memRead16, guardRead_error (by omega)] at e; cases e
    · rw [memRead16, guardRead_error (by omega)] at e; cases e

theorem exec_hreset_next {s t : State} : exec .hreset s = .next t ↔ t = resetEngine s := by
  simp [exec, execHreset, eq_comm]

theorem exec_hload_next {s t : State} {a : Nat} {b : Byte} :
    exec (.hload a b) s = .next t ↔ s.busy = false ∧ a < s.maxFrame ∧ t = memWrite a b s := by
  show execHload a b s = _ ↔ _
  unfold execHload
  split
  · rename_i hb; exact ⟨fun h => (by cases h), fun h => (by simp [h.1] at hb)⟩
  · rename_i hb
    split
    · rename_i h
      exact ⟨fun e => (by cases e; exact ⟨by simpa using hb, h, rfl⟩), fun e => (by rw [e.2.2])⟩
    · rename_i h
      exact ⟨fun e => (by cases e), fun e => absurd e.2.1 h⟩

theorem exec_hsetlen_next {s t : State} {n : Nat} :
    exec (.hsetlen n) s = .next t ↔
      s.busy = false ∧ n < 2 ^ s.lenW ∧ t = { s with frameLen := n } := by
  show execHsetlen n s = _ ↔ _
  unfold execHsetlen
  split
  · rename_i hb; exact ⟨fun h => (by cases h), fun h => (by simp [h.1] at hb)⟩
  · rename_i hb
    split
    · rename_i h
      exact ⟨fun e => (by cases e; exact ⟨by simpa using hb, h, rfl⟩), fun e => (by rw [e.2.2])⟩
    · rename_i h
      exact ⟨fun e => (by cases e), fun e => absurd e.2.1 h⟩

theorem exec_hstart_next {s t : State} :
    exec .hstart s = .next t ↔ s.busy = false ∧ s.len ≤ s.maxFrame ∧ t = beginDecode s := by
  show execHstart s = _ ↔ _
  unfold execHstart
  split
  · rename_i hb; exact ⟨fun h => (by cases h), fun h => (by simp [h.1] at hb)⟩
  · rename_i hb
    split
    · rename_i h
      exact ⟨fun e => (by cases e; exact ⟨by simpa using hb, h, rfl⟩), fun e => (by rw [e.2.2])⟩
    · rename_i h
      exact ⟨fun e => (by cases e), fun e => absurd e.2.1 h⟩

/-- HREAD's reply is a value, and only the HOST's fields and the counter of drawn values change. -/
theorem exec_hread_next {s t : State} {r : Reg} (h : exec (.hread r) s = .next t) :
    ∃ v n, t = { s with replies := s.replies ++ [v], draws := n } := by
  change execHread r s = _ at h
  unfold execHread at h
  cases h
  split
  · exact ⟨_, _, rfl⟩
  · exact ⟨_, s.draws, rfl⟩

theorem exec_hreadfb_next {s t : State} {a : Nat} :
    exec (.hreadfb a) s = .next t ↔ a < s.maxFrame ∧ t = reply (s.byte a).toNat s := by
  show execHreadfb a s = _ ↔ _
  unfold execHreadfb
  split
  · rename_i h
    exact ⟨fun e => (by cases e; exact ⟨h, rfl⟩), fun e => (by rw [e.2])⟩
  · rename_i h
    exact ⟨fun e => (by cases e), fun e => absurd e.1 h⟩

/-- P1's two outcomes. -/
theorem checkEth_cases (s : State) :
    (s.len < 14 ∧ checkEth s = raiseStop .truncatedFrame s) ∨ (14 ≤ s.len ∧ checkEth s = { s with phase := .p2 }) := by
  unfold checkEth; simp only [Config.ethHlen]; split
  · exact .inl ⟨‹_›, rfl⟩
  · exact .inr ⟨by omega, rfl⟩

/-- P3's outcomes once the ether-type selects IPv4. -/
theorem acceptIpv4_cases (s : State) :
    (s.len < 34 ∧ acceptIpv4 s = raiseStop .invalidOrTruncatedIpHeader s) ∨
      (34 ≤ s.len ∧ acceptIpv4 s = { s with phase := .p4 }) := by
  unfold acceptIpv4; simp only [Config.ethHlen, Config.ipMinHlen, Nat.reduceAdd]; split
  · exact .inl ⟨‹_›, rfl⟩
  · exact .inr ⟨by omega, rfl⟩

/-- P3's outcomes. -/
theorem selectIp_cases (s : State) :
    (s.regs.ethType ≠ 0x0800 ∧ selectIp s = raiseStop .unsupportedEtherType s) ∨
      (s.regs.ethType = 0x0800 ∧ selectIp s = acceptIpv4 s) := by
  unfold selectIp; split
  · exact .inr ⟨‹_›, rfl⟩
  · exact .inl ⟨‹_›, rfl⟩

/-- P4's outcomes once the nibble is read. -/
theorem acceptIhl_cases (n : Nibble) (s : State) :
    ((4 * n.toNat < 20 ∨ 14 + 4 * n.toNat > s.len) ∧ acceptIhl n s = raiseStop .invalidOrTruncatedIpHeader s) ∨
      (20 ≤ 4 * n.toNat ∧ 14 + 4 * n.toNat ≤ s.len ∧
        acceptIhl n s = { s with wIphl := hdrLenOf n, phase := .p5 }) := by
  unfold acceptIhl
  simp only [hdrLenOf_toNat, l3, Config.ethHlen, Config.ipMinHlen]
  split
  · exact .inl ⟨.inl ‹_›, rfl⟩
  · split
    · exact .inl ⟨.inr ‹_›, rfl⟩
    · exact .inr ⟨by omega, by omega, rfl⟩

/-- P6's outcomes once the protocol selects TCP. -/
theorem acceptTcp_cases (s : State) :
    (14 + s.wIphl.toNat + 20 > s.len ∧ acceptTcp s = raiseStop .invalidOrTruncatedTcpHeader s) ∨
      (14 + s.wIphl.toNat + 20 ≤ s.len ∧ acceptTcp s = { s with phase := .p7 }) := by
  by_cases h : 14 + s.wIphl.toNat + 20 > s.len
  · exact .inl ⟨h, if_pos h⟩
  · exact .inr ⟨by omega, if_neg h⟩

/-- P6's outcomes. -/
theorem selectTcp_cases (s : State) :
    (s.regs.ipProto ≠ 6 ∧ selectTcp s = raiseStop .unsupportedIpProtocol s) ∨
      (s.regs.ipProto = 6 ∧ selectTcp s = acceptTcp s) := by
  unfold selectTcp; split
  · exact .inr ⟨‹_›, rfl⟩
  · exact .inl ⟨‹_›, rfl⟩

/-- P7's outcomes once the nibble is read. -/
theorem acceptDoff_cases (n : Nibble) (s : State) :
    ((4 * n.toNat < 20 ∨ s.l4 + 4 * n.toNat > s.len) ∧ acceptDoff n s = raiseStop .invalidOrTruncatedTcpHeader s) ∨
      (20 ≤ 4 * n.toNat ∧ s.l4 + 4 * n.toNat ≤ s.len ∧
        acceptDoff n s = { s with wTcphl := hdrLenOf n, phase := .p8 }) := by
  unfold acceptDoff
  simp only [hdrLenOf_toNat, Config.tcpMinHlen]
  split
  · exact .inl ⟨.inl ‹_›, rfl⟩
  · split
    · exact .inl ⟨.inr ‹_›, rfl⟩
    · exact .inr ⟨by omega, by omega, rfl⟩

end Sys2Proof.Machine
end

