-- ==== Sys2Proof/Laws/Effect.lean ====
section
/-! SUPPORT. Everything an instruction that goes on can do, as one relation with one case per outcome (the rows of
spec/44_decode_function.md R215 and the host commands), and the inversion of exec into it. Invariants and frames are proved
by cases on it. -/

namespace Sys2Proof.Machine

/-- The outcomes of an instruction that answers a next state. -/
inductive Effect : Instr → State → State → Prop where
  | truncated {s : State} (hp : s.phase = .p1) (hl : s.len < 14) : Effect .chketh s (raiseStop .truncatedFrame s)
  | ethFits {s : State} (hp : s.phase = .p1) (hl : 14 ≤ s.len) : Effect .chketh s { s with phase := .p2 }
  | extractEth {s : State} (hp : s.phase = .p2) (hl : 14 ≤ s.len) :
      Effect .exteth s (putEth (be48 s.byte 0) (be48 s.byte 6) (be16 s.byte 12) s)
  | unsupportedEtherType {s : State} (hp : s.phase = .p3) (ht : s.regs.ethType ≠ 0x0800) :
      Effect .selip s (raiseStop .unsupportedEtherType s)
  | ipTooShort {i : Instr} {s : State} (hi : i = .selip ∨ i = .ethertypeIpv4) (hp : s.phase = .p3)
      (ht : s.regs.ethType = 0x0800) (hl : s.len < 34) : Effect i s (raiseStop .invalidOrTruncatedIpHeader s)
  | ipFits {i : Instr} {s : State} (hi : i = .selip ∨ i = .ethertypeIpv4) (hp : s.phase = .p3)
      (ht : s.regs.ethType = 0x0800) (hl : 34 ≤ s.len) : Effect i s { s with phase := .p4 }
  | ipHdrBad {i : Instr} {s : State} (hi : i = .decihl ∨ ∃ n, i = .ihlLegal n) (hp : s.phase = .p4)
      (hl : ipHdrLen s.byte < 20 ∨ 14 + ipHdrLen s.byte > s.len) : Effect i s (raiseStop .invalidOrTruncatedIpHeader s)
  | ipHdrOk {i : Instr} {s : State} (hi : i = .decihl ∨ ∃ n, i = .ihlLegal n) (hp : s.phase = .p4)
      (h20 : 20 ≤ ipHdrLen s.byte) (hl : 14 + ipHdrLen s.byte ≤ s.len) :
      Effect i s { s with wIphl := hdrLenOf (ihlOf (s.byte 14)), phase := .p5 }
  | extractIp {s : State} (hp : s.phase = .p5) (hl : 34 ≤ s.len) :
      Effect .extip s (putIp (s.byte 14) (s.byte 23) (be32 s.byte 26) (be32 s.byte 30) s)
  | unsupportedIpProtocol {s : State} (hp : s.phase = .p6) (ht : s.regs.ipProto ≠ 6) :
      Effect .seltcp s (raiseStop .unsupportedIpProtocol s)
  | tcpTooShort {i : Instr} {s : State} (hi : i = .seltcp ∨ i = .protocolTcp) (hp : s.phase = .p6)
      (ht : s.regs.ipProto = 6) (hl : 14 + s.wIphl.toNat + 20 > s.len) :
      Effect i s (raiseStop .invalidOrTruncatedTcpHeader s)
  | tcpFits {i : Instr} {s : State} (hi : i = .seltcp ∨ i = .protocolTcp) (hp : s.phase = .p6)
      (ht : s.regs.ipProto = 6) (hl : 14 + s.wIphl.toNat + 20 ≤ s.len) : Effect i s { s with phase := .p7 }
  | tcpHdrBad {i : Instr} {s : State} (hi : i = .decdoff ∨ ∃ n, i = .dataOffsetLegal n) (hp : s.phase = .p7)
      (hl : 4 * (dataOffsetOf (s.byte (s.l4 + 12))).toNat < 20 ∨
        s.l4 + 4 * (dataOffsetOf (s.byte (s.l4 + 12))).toNat > s.len) :
      Effect i s (raiseStop .invalidOrTruncatedTcpHeader s)
  | tcpHdrOk {i : Instr} {s : State} (hi : i = .decdoff ∨ ∃ n, i = .dataOffsetLegal n) (hp : s.phase = .p7)
      (h20 : 20 ≤ 4 * (dataOffsetOf (s.byte (s.l4 + 12))).toNat)
      (hl : s.l4 + 4 * (dataOffsetOf (s.byte (s.l4 + 12))).toNat ≤ s.len) :
      Effect i s { s with wTcphl := hdrLenOf (dataOffsetOf (s.byte (s.l4 + 12))), phase := .p8 }
  | extractTcp {s : State} (hp : s.phase = .p8) (hl : s.l4 + 12 ≤ s.len) :
      Effect .exttcp s
        (putTcp (be16 s.byte s.l4) (be16 s.byte (s.l4 + 2)) (be32 s.byte (s.l4 + 4)) (be32 s.byte (s.l4 + 8)) s)
  | reset {s : State} : Effect .hreset s (resetEngine s)
  | load {s : State} {a : Nat} {b : Byte} (hb : s.busy = false) (ha : a < s.maxFrame) : Effect (.hload a b) s (memWrite a b s)
  | setLen {s : State} {n : Nat} (hb : s.busy = false) (hn : n < 2 ^ s.lenW) :
      Effect (.hsetlen n) s { s with frameLen := n }
  | start {s : State} (hb : s.busy = false) (hl : s.len ≤ s.maxFrame) : Effect .hstart s (beginDecode s)
  | readReg {s : State} {r : Reg} (v : Nat) (n : Nat) :
      Effect (.hread r) s { s with replies := s.replies ++ [v], draws := n }
  | readFb {s : State} {a : Nat} (ha : a < s.maxFrame) : Effect (.hreadfb a) s (reply (s.byte a).toNat s)

/-- Whatever exec answers as a next state is one of the outcomes. -/
theorem effect_of_exec {i : Instr} {s t : State} (h : exec i s = .next t) : Effect i s t := by
  have eth {j : Instr} (hj : j = .selip ∨ j = .ethertypeIpv4) (hp : s.phase = .p3) (ht : s.regs.ethType = 0x0800) :
      Effect j s (acceptIpv4 s) := by
    rcases acceptIpv4_cases s with ⟨hl, e⟩ | ⟨hl, e⟩ <;> rw [e]
    · exact .ipTooShort hj hp ht hl
    · exact .ipFits hj hp ht hl
  have ihl {j : Instr} (hj : j = .decihl ∨ ∃ n, j = .ihlLegal n) (hp : s.phase = .p4) :
      Effect j s (acceptIhl (ihlOf (s.byte 14)) s) := by
    rcases acceptIhl_cases (ihlOf (s.byte 14)) s with ⟨hl, e⟩ | ⟨h20, hl, e⟩ <;> rw [e]
    · exact .ipHdrBad hj hp hl
    · exact .ipHdrOk hj hp h20 hl
  have tcp {j : Instr} (hj : j = .seltcp ∨ j = .protocolTcp) (hp : s.phase = .p6) (ht : s.regs.ipProto = 6) :
      Effect j s (acceptTcp s) := by
    rcases acceptTcp_cases s with ⟨hl, e⟩ | ⟨hl, e⟩ <;> rw [e]
    · exact .tcpTooShort hj hp ht hl
    · exact .tcpFits hj hp ht hl
  have doff {j : Instr} (hj : j = .decdoff ∨ ∃ n, j = .dataOffsetLegal n) (hp : s.phase = .p7) :
      Effect j s (acceptDoff (dataOffsetOf (s.byte (s.l4 + 12))) s) := by
    rcases acceptDoff_cases (dataOffsetOf (s.byte (s.l4 + 12))) s with ⟨hl, e⟩ | ⟨h20, hl, e⟩ <;> rw [e]
    · exact .tcpHdrBad hj hp hl
    · exact .tcpHdrOk hj hp h20 hl
  cases i with
  | chketh =>
    obtain ⟨hp, rfl⟩ := exec_chketh_next.1 h
    rcases checkEth_cases s with ⟨hl, e⟩ | ⟨hl, e⟩ <;> rw [e]
    · exact .truncated hp hl
    · exact .ethFits hp hl
  | exteth => obtain ⟨hp, hl, rfl⟩ := exec_exteth_next.1 h; exact .extractEth hp hl
  | selip =>
    obtain ⟨hp, rfl⟩ := exec_selip_next.1 h
    rcases selectIp_cases s with ⟨ht, e⟩ | ⟨ht, e⟩ <;> rw [e]
    · exact .unsupportedEtherType hp ht
    · exact eth (.inl rfl) hp ht
  | ethertypeIpv4 => obtain ⟨hp, ht, rfl⟩ := exec_ethertypeIpv4_next.1 h; exact eth (.inr rfl) hp ht
  | decihl => obtain ⟨hp, -, rfl⟩ := exec_decihl_next.1 h; exact ihl (.inl rfl) hp
  | ihlLegal n => obtain ⟨hp, -, rfl, rfl⟩ := exec_ihlLegal_next.1 h; exact ihl (.inr ⟨_, rfl⟩) hp
  | extip => obtain ⟨hp, hl, rfl⟩ := exec_extip_next.1 h; exact .extractIp hp hl
  | seltcp =>
    obtain ⟨hp, rfl⟩ := exec_seltcp_next.1 h
    rcases selectTcp_cases s with ⟨ht, e⟩ | ⟨ht, e⟩ <;> rw [e]
    · exact .unsupportedIpProtocol hp ht
    · exact tcp (.inl rfl) hp ht
  | protocolTcp => obtain ⟨hp, ht, rfl⟩ := exec_protocolTcp_next.1 h; exact tcp (.inr rfl) hp ht
  | decdoff => obtain ⟨hp, -, rfl⟩ := exec_decdoff_next.1 h; exact doff (.inl rfl) hp
  | dataOffsetLegal n => obtain ⟨hp, -, rfl, rfl⟩ := exec_dataOffsetLegal_next.1 h; exact doff (.inr ⟨_, rfl⟩) hp
  | exttcp => obtain ⟨hp, hl, rfl⟩ := exec_exttcp_next.1 h; exact .extractTcp hp hl
  | hreset => rw [exec_hreset_next.1 h]; exact .reset
  | hload a b => obtain ⟨hb, ha, rfl⟩ := exec_hload_next.1 h; exact .load hb ha
  | hsetlen n => obtain ⟨hb, hn, rfl⟩ := exec_hsetlen_next.1 h; exact .setLen hb hn
  | hstart => obtain ⟨hb, hl, rfl⟩ := exec_hstart_next.1 h; exact .start hb hl
  | hread r => obtain ⟨v, n, rfl⟩ := exec_hread_next h; exact .readReg v n
  | hreadfb a => obtain ⟨ha, rfl⟩ := exec_hreadfb_next.1 h; exact .readFb ha

end Sys2Proof.Machine
end

