-- ==== Sys2Proof/Laws/PerInstr.lean ====
section
/-! SUPPORT. What holds of every instruction as syntax, one lemma per constructor. -/

namespace Sys2Proof.Laws

/-- The code of an instruction lies in its own family's encoding space: a PHASE code, a host access or a frame field
(spec/30_encoding.md R110, R111, R115). -/
def EncodingSpace.Statement (i : Instr) : Prop := (encode i).family = i.family

theorem EncodingSpace.chketh : EncodingSpace.Statement .chketh := rfl
theorem EncodingSpace.exteth : EncodingSpace.Statement .exteth := rfl
theorem EncodingSpace.selip : EncodingSpace.Statement .selip := rfl
theorem EncodingSpace.decihl : EncodingSpace.Statement .decihl := rfl
theorem EncodingSpace.extip : EncodingSpace.Statement .extip := rfl
theorem EncodingSpace.seltcp : EncodingSpace.Statement .seltcp := rfl
theorem EncodingSpace.decdoff : EncodingSpace.Statement .decdoff := rfl
theorem EncodingSpace.exttcp : EncodingSpace.Statement .exttcp := rfl
theorem EncodingSpace.hreset : EncodingSpace.Statement .hreset := rfl
theorem EncodingSpace.hload (a : Nat) (b : Byte) : EncodingSpace.Statement (.hload a b) := rfl
theorem EncodingSpace.hsetlen (n : Nat) : EncodingSpace.Statement (.hsetlen n) := rfl
theorem EncodingSpace.hstart : EncodingSpace.Statement .hstart := rfl
theorem EncodingSpace.hread (r : Reg) : EncodingSpace.Statement (.hread r) := rfl
theorem EncodingSpace.hreadfb (a : Nat) : EncodingSpace.Statement (.hreadfb a) := rfl
theorem EncodingSpace.ethertypeIpv4 : EncodingSpace.Statement .ethertypeIpv4 := rfl
theorem EncodingSpace.ihlLegal (ihl : Nibble) : EncodingSpace.Statement (.ihlLegal ihl) := rfl
theorem EncodingSpace.protocolTcp : EncodingSpace.Statement .protocolTcp := rfl
theorem EncodingSpace.dataOffsetLegal (doff : Nibble) : EncodingSpace.Statement (.dataOffsetLegal doff) := rfl

end Sys2Proof.Laws
end

