-- ==== Sys2Proof/Laws/Reference.lean ====
section
/-! SUPPORT. The pure decode case by case (R210, R229, R230), the operations it takes (R310), and how the record a state
holds grows with the operations (R211). -/

namespace Sys2Proof.Machine

/-! ## The constants of R7 at their values -/

theorem decodeFrame_eq (o : Config.MacOrder) (fb : Nat → Byte) (len : Nat) :
    decodeFrame o fb len =
      if len < 14 then DecodeRecord.start.stoppedBy .truncatedFrame
      else if be16 fb 12 ≠ 0x0800 then (recordEth o fb).stoppedBy .unsupportedEtherType
      else if len < 34 then (recordEth o fb).stoppedBy .invalidOrTruncatedIpHeader
      else if ipHdrLen fb < 20 ∨ 14 + ipHdrLen fb > len then (recordEth o fb).stoppedBy .invalidOrTruncatedIpHeader
      else if fb 23 ≠ 6 then (recordIp o fb).stoppedBy .unsupportedIpProtocol
      else if 14 + ipHdrLen fb + 20 > len then (recordIp o fb).stoppedBy .invalidOrTruncatedTcpHeader
      else if tcpHdrLen fb < 20 ∨ 14 + ipHdrLen fb + tcpHdrLen fb > len then
        (recordIp o fb).stoppedBy .invalidOrTruncatedTcpHeader
      else recordTcp o fb len := rfl

theorem decodeOps_eq (fb : Nat → Byte) (len : Nat) :
    decodeOps fb len =
      if len < 14 then 1
      else if be16 fb 12 ≠ 0x0800 ∨ len < 34 then 3
      else if ipHdrLen fb < 20 ∨ 14 + ipHdrLen fb > len then 4
      else if fb 23 ≠ 6 ∨ 14 + ipHdrLen fb + 20 > len then 6
      else if tcpHdrLen fb < 20 ∨ 14 + ipHdrLen fb + tcpHdrLen fb > len then 7
      else 8 := rfl

theorem decodeReads_eq (fb : Nat → Byte) (len : Nat) :
    decodeReads fb len =
      if len < 14 then []
      else if be16 fb 12 ≠ 0x0800 ∨ len < 34 then List.range 14
      else if ipHdrLen fb < 20 ∨ 14 + ipHdrLen fb > len then List.range 14 ++ [14]
      else if fb 23 ≠ 6 ∨ 14 + ipHdrLen fb + 20 > len then List.range 14 ++ [14, 23] ++ List.range' 26 8
      else if tcpHdrLen fb < 20 ∨ 14 + ipHdrLen fb + tcpHdrLen fb > len then
        List.range 14 ++ [14, 23] ++ List.range' 26 8 ++ [14 + ipHdrLen fb + 12]
      else List.range 14 ++ [14, 23] ++ List.range' 26 8 ++ [14 + ipHdrLen fb + 12] ++
        List.range' (14 + ipHdrLen fb) 12 := rfl

theorem ethFits_iff (s : State) : EthFits s ↔ 14 ≤ s.len := Iff.rfl

theorem ipFits_iff (s : State) : IpFits s ↔ be16 s.byte 12 = 0x0800 ∧ 34 ≤ s.len := Iff.rfl

theorem ipHdrOk_iff (s : State) :
    IpHdrOk s ↔ 20 ≤ ipHdrLen s.byte ∧ 14 + ipHdrLen s.byte ≤ s.len ∧ s.wIphl.toNat = ipHdrLen s.byte := Iff.rfl

theorem tcpFits_iff (s : State) : TcpFits s ↔ s.byte 23 = 6 ∧ 14 + ipHdrLen s.byte + 20 ≤ s.len := Iff.rfl

theorem tcpHdrOk_iff (s : State) :
    TcpHdrOk s ↔ 20 ≤ tcpHdrLen s.byte ∧ 14 + ipHdrLen s.byte + tcpHdrLen s.byte ≤ s.len ∧
      s.wTcphl.toNat = tcpHdrLen s.byte := Iff.rfl

/-! ## decodeFrame, one lemma per way it ends -/

theorem decodeFrame_short {o : Config.MacOrder} {fb : Nat → Byte} {len : Nat} (h : len < 14) :
    decodeFrame o fb len = DecodeRecord.start.stoppedBy .truncatedFrame := by
  simp [decodeFrame_eq, h]

theorem decodeFrame_otherType {o : Config.MacOrder} {fb : Nat → Byte} {len : Nat} (h : 14 ≤ len) (ht : be16 fb 12 ≠ 0x0800) :
    decodeFrame o fb len = (recordEth o fb).stoppedBy .unsupportedEtherType := by
  rw [decodeFrame_eq, if_neg (by omega), if_pos ht]

theorem decodeFrame_noIpHeader {o : Config.MacOrder} {fb : Nat → Byte} {len : Nat} (h : 14 ≤ len) (ht : be16 fb 12 = 0x0800) (hl : len < 34) :
    decodeFrame o fb len = (recordEth o fb).stoppedBy .invalidOrTruncatedIpHeader := by
  simp [decodeFrame_eq, Nat.not_lt.2 h, ht, hl]

theorem decodeFrame_badIpHeader {o : Config.MacOrder} {fb : Nat → Byte} {len : Nat} (ht : be16 fb 12 = 0x0800) (hl : 34 ≤ len)
    (hb : ipHdrLen fb < 20 ∨ 14 + ipHdrLen fb > len) :
    decodeFrame o fb len = (recordEth o fb).stoppedBy .invalidOrTruncatedIpHeader := by
  rw [decodeFrame_eq, if_neg (by omega), if_neg (by simp [ht]), if_neg (by omega), if_pos hb]

theorem decodeFrame_otherProtocol {o : Config.MacOrder} {fb : Nat → Byte} {len : Nat} (ht : be16 fb 12 = 0x0800) (hl : 34 ≤ len) (h20 : 20 ≤ ipHdrLen fb)
    (hi : 14 + ipHdrLen fb ≤ len) (hp : fb 23 ≠ 6) :
    decodeFrame o fb len = (recordIp o fb).stoppedBy .unsupportedIpProtocol := by
  rw [decodeFrame_eq, if_neg (by omega), if_neg (by simp [ht]), if_neg (by omega), if_neg (by omega), if_pos hp]

theorem decodeFrame_noTcpHeader {o : Config.MacOrder} {fb : Nat → Byte} {len : Nat} (ht : be16 fb 12 = 0x0800) (hl : 34 ≤ len) (h20 : 20 ≤ ipHdrLen fb)
    (hi : 14 + ipHdrLen fb ≤ len) (hp : fb 23 = 6) (hb : 14 + ipHdrLen fb + 20 > len) :
    decodeFrame o fb len = (recordIp o fb).stoppedBy .invalidOrTruncatedTcpHeader := by
  rw [decodeFrame_eq, if_neg (by omega), if_neg (by simp [ht]), if_neg (by omega), if_neg (by omega), if_neg (by simp [hp]),
    if_pos hb]

theorem decodeFrame_badTcpHeader {o : Config.MacOrder} {fb : Nat → Byte} {len : Nat} (ht : be16 fb 12 = 0x0800) (hl : 34 ≤ len) (h20 : 20 ≤ ipHdrLen fb)
    (hp : fb 23 = 6) (hm : 14 + ipHdrLen fb + 20 ≤ len)
    (hb : tcpHdrLen fb < 20 ∨ 14 + ipHdrLen fb + tcpHdrLen fb > len) :
    decodeFrame o fb len = (recordIp o fb).stoppedBy .invalidOrTruncatedTcpHeader := by
  rw [decodeFrame_eq, if_neg (by omega), if_neg (by simp [ht]), if_neg (by omega), if_neg (by omega), if_neg (by simp [hp]),
    if_neg (by omega), if_pos hb]

theorem decodeFrame_full {o : Config.MacOrder} {fb : Nat → Byte} {len : Nat} (ht : be16 fb 12 = 0x0800) (hl : 34 ≤ len) (h20 : 20 ≤ ipHdrLen fb)
    (hp : fb 23 = 6) (hm : 14 + ipHdrLen fb + 20 ≤ len) (ht20 : 20 ≤ tcpHdrLen fb)
    (hf : 14 + ipHdrLen fb + tcpHdrLen fb ≤ len) : decodeFrame o fb len = recordTcp o fb len := by
  rw [decodeFrame_eq, if_neg (by omega), if_neg (by simp [ht]), if_neg (by omega), if_neg (by omega), if_neg (by simp [hp]),
    if_neg (by omega), if_neg (by omega)]

/-! ## decodeOps -/

theorem decodeOps_bounds (fb : Nat → Byte) (len : Nat) : 1 ≤ decodeOps fb len ∧ decodeOps fb len ≤ 8 := by
  rw [decodeOps_eq]
  repeat' split
  all_goals omega

theorem decodeOps_short {fb : Nat → Byte} {len : Nat} (h : len < 14) : decodeOps fb len = 1 := by simp [decodeOps_eq, h]

theorem decodeOps_p3 {fb : Nat → Byte} {len : Nat} (h : 14 ≤ len) (hb : be16 fb 12 ≠ 0x0800 ∨ len < 34) : decodeOps fb len = 3 := by
  rw [decodeOps_eq, if_neg (by omega), if_pos hb]

theorem decodeOps_p4 {fb : Nat → Byte} {len : Nat} (ht : be16 fb 12 = 0x0800) (hl : 34 ≤ len) (hb : ipHdrLen fb < 20 ∨ 14 + ipHdrLen fb > len) :
    decodeOps fb len = 4 := by
  rw [decodeOps_eq, if_neg (by omega), if_neg (by simp [ht]; omega), if_pos hb]

theorem decodeOps_p6 {fb : Nat → Byte} {len : Nat} (ht : be16 fb 12 = 0x0800) (hl : 34 ≤ len) (h20 : 20 ≤ ipHdrLen fb) (hi : 14 + ipHdrLen fb ≤ len)
    (hb : fb 23 ≠ 6 ∨ 14 + ipHdrLen fb + 20 > len) : decodeOps fb len = 6 := by
  rw [decodeOps_eq, if_neg (by omega), if_neg (by simp [ht]; omega), if_neg (by omega), if_pos hb]

theorem decodeOps_p7 {fb : Nat → Byte} {len : Nat} (ht : be16 fb 12 = 0x0800) (hl : 34 ≤ len) (h20 : 20 ≤ ipHdrLen fb)
    (hp : fb 23 = 6) (hm : 14 + ipHdrLen fb + 20 ≤ len)
    (hb : tcpHdrLen fb < 20 ∨ 14 + ipHdrLen fb + tcpHdrLen fb > len) : decodeOps fb len = 7 := by
  rw [decodeOps_eq, if_neg (by omega), if_neg (by simp [ht]; omega), if_neg (by omega), if_neg (by simp [hp]; omega),
    if_pos hb]

theorem decodeOps_p8 {fb : Nat → Byte} {len : Nat} (ht : be16 fb 12 = 0x0800) (hl : 34 ≤ len) (h20 : 20 ≤ ipHdrLen fb)
    (hp : fb 23 = 6) (hm : 14 + ipHdrLen fb + 20 ≤ len) (ht20 : 20 ≤ tcpHdrLen fb)
    (hf : 14 + ipHdrLen fb + tcpHdrLen fb ≤ len) : decodeOps fb len = 8 := by
  rw [decodeOps_eq, if_neg (by omega), if_neg (by simp [ht]; omega), if_neg (by omega), if_neg (by simp [hp]; omega),
    if_neg (by omega)]

/-! ## The record a state holds -/

/-- L4 once P4 has passed. -/
theorem IpHdrOk.l4_eq {s : State} (h : IpHdrOk s) : s.l4 = 14 + ipHdrLen s.byte := by
  rw [← h.2.2]; rfl

/-- What P2 makes of the cleared record. -/
theorem putEth_record {s : State} (h : s.record = DecodeRecord.start) :
    (putEth (be48 s.byte 0) (be48 s.byte 6) (be16 s.byte 12) s).record = recordEth s.macOrder s.byte := by
  have h1 : s.stopReason = .none := congrArg (·.stopReason) h
  have h2 : s.regs = Results.zero := congrArg (·.regs) h
  simp [State.record, h1, h2, recordEth, DecodeRecord.start]

/-- What P5 makes of the Ethernet record. -/
theorem putIp_record {s : State} (h : s.record = recordEth s.macOrder s.byte) (hi : IpHdrOk s) :
    (putIp (s.byte 14) (s.byte 23) (be32 s.byte 26) (be32 s.byte 30) s).record = recordIp s.macOrder s.byte := by
  have h1 : s.stopReason = .none := congrArg (·.stopReason) h
  have h2 : s.regs = (recordEth s.macOrder s.byte).regs := congrArg (·.regs) h
  have h3 : s.wIphl = BitVec.ofNat 6 (ipHdrLen s.byte) := by rw [← hi.2.2]; simp
  simp only [State.record, putIp_depth, putIp_stopReason, putIp_regs, h1, h2, h3]; rfl

/-- What P8 makes of the IPv4 record. -/
theorem putTcp_record {s : State} (h : s.record = recordIp s.macOrder s.byte) (hi : IpHdrOk s) (ht : TcpHdrOk s) :
    (putTcp (be16 s.byte s.l4) (be16 s.byte (s.l4 + 2)) (be32 s.byte (s.l4 + 4)) (be32 s.byte (s.l4 + 8)) s).record =
      recordTcp s.macOrder s.byte s.len := by
  have h2 : s.regs = (recordIp s.macOrder s.byte).regs := congrArg (·.regs) h
  obtain ⟨g1, g2, g3⟩ := ht
  have e1 : doffOfHdrLen s.wTcphl = BitVec.ofNat 4 (tcpHdrLen s.byte / 4) := by
    rw [← g3]; generalize s.wTcphl = w; revert w; decide
  simp only [State.record, putTcp_depth, putTcp_stopReason, putTcp_regs, h2, hi.l4_eq, g3, e1]; rfl

end Sys2Proof.Machine
end

