-- ==== Sys2Proof/Laws/Renderer.lean ====
section
/-! SUPPORT. The dump's pieces and their lengths (spec/45_renderer_host.md R248, R249). -/

namespace Sys2Proof.Machine

/-- A hex column has three characters, a byte's or padding. -/
@[simp] theorem hexColumn_length (row : List Byte) (i : Nat) : (hexColumn row i).length = 3 := by
  unfold hexColumn; split <;> rfl

@[simp] theorem hex4_length (n : Nat) : (hex4 n).length = 4 := rfl

/-- At most DUMP_MAX bytes are dumped. -/
@[simp] theorem dumpSlice_length (payload : List Byte) : (dumpSlice payload).length = min payload.length 128 := by
  rw [dumpSlice, List.length_take, Nat.min_comm]

/-- A row holds sixteen bytes, or what is left of the slice. -/
@[simp] theorem rowBytes_length (d : List Byte) (r : Nat) : (rowBytes d r).length = min 16 (d.length - 16 * r) := by
  rw [rowBytes, List.length_take, List.length_drop]

/-- Row k of a dump, where there is one. -/
theorem dumpRows_getElem?_eq_some_iff {payload : List Byte} {k : Nat} {row : Text} :
    (dumpRows payload)[k]? = some row ↔
      k < rowCount (min payload.length 128) ∧ row = dumpRowText k (rowBytes (dumpSlice payload) k) := by
  simp only [dumpRows, dumpSlice_length, List.getElem?_map, Option.map_eq_some_iff]
  constructor
  · rintro ⟨j, hj, rfl⟩
    obtain ⟨h, rfl⟩ := List.getElem?_eq_some_iff.1 hj
    simpa using h
  · rintro ⟨h, rfl⟩
    exact ⟨k, by simp [h], rfl⟩

end Sys2Proof.Machine
end

