-- ==== Sys2Proof/Laws/Run.lean ====
section
/-! SUPPORT. Runs of the machine, a step at a time. -/

namespace Sys2Proof.Machine

/-- A run of no steps. -/
@[simp] theorem run_zero (s : State) : Sys2Proof.core.run 0 s = .next s := rfl

/-- A run that begins with a step that goes on, on any machine. -/
theorem run_succ_next (M : Host.Core) {k : Nat} {s t : M.State} (h : M.step s = .next t) :
    M.run (k + 1) s = M.run k t := by rw [Host.Core.run, h]

/-- A run whose first step faults, on any machine. -/
theorem run_succ_fault (M : Host.Core) {k : Nat} {s : M.State} {f : M.Fault} (h : M.step s = .fault f) :
    M.run (k + 1) s = .fault f := by rw [Host.Core.run, h]

/-- A run whose first step is refused, on any machine. -/
theorem run_succ_refused (M : Host.Core) {k : Nat} {s : M.State} {r : M.Refusal} (h : M.step s = .refused r) :
    M.run (k + 1) s = .refused r := by rw [Host.Core.run, h]

/-- A run that begins with a step that goes on. -/
theorem run_succ_of_step {k : Nat} {s t : State} (h : step s = .next t) :
    Sys2Proof.core.run (k + 1) s = Sys2Proof.core.run k t := run_succ_next Sys2Proof.core h

/-- A run that goes on has gone on at its first step. -/
theorem run_succ_inv {k : Nat} {s t : State} (h : Sys2Proof.core.run (k + 1) s = .next t) :
    ∃ u, step s = .next u ∧ Sys2Proof.core.run k u = .next t := by
  cases hs : step s with
  | next u => exact ⟨u, rfl, by rw [← h, run_succ_of_step hs]⟩
  | fault f => rw [run_succ_fault Sys2Proof.core hs] at h; cases h
  | refused r => rw [run_succ_refused Sys2Proof.core hs] at h; cases h

/-- A run of two parts. -/
theorem run_add {j k : Nat} {s t : State} (h : Sys2Proof.core.run j s = .next t) :
    Sys2Proof.core.run (j + k) s = Sys2Proof.core.run k t := by
  induction j generalizing s with
  | zero => cases h; rw [Nat.zero_add]
  | succ j ih =>
    obtain ⟨u, hs, hu⟩ := run_succ_inv h
    rw [show j + 1 + k = (j + k) + 1 by omega, run_succ_of_step hs, ih hu]

/-- An induction over runs: what holds of a state and is kept by every step holds after any run. -/
theorem run_induction {P : State → Prop} (hstep : ∀ s t, P s → step s = .next t → P t) :
    ∀ (k : Nat) (s t : State), P s → Sys2Proof.core.run k s = .next t → P t := by
  intro k
  induction k with
  | zero => intro s t hs h; cases h; exact hs
  | succ k ih =>
    intro s t hs h
    obtain ⟨u, hu, hr⟩ := run_succ_inv h
    exact ih u t (hstep s u hs hu) hr

end Sys2Proof.Machine
end

