-- ==== Sys2Proof/Tests/Slice0.lean ====
section
/-! SUPPORT. The model's own tests. Expected values are the spec's: its vectors S1 to V34, HV1 to HV8 and programs
(spec/95_test_vectors.md), the examples and tables of its rules. For each statement with hypotheses, a named witness that
meets them. -/

namespace Sys2Proof.Tests

open Machine

/-! ## Frames and small states -/

/-- ETH_A: destination 02:00:00:00:00:02, source 02:00:00:00:00:01, ether-type 0x0800. -/
def ethA : List Byte := [0x02, 0, 0, 0, 0, 0x02, 0x02, 0, 0, 0, 0, 0x01, 0x08, 0x00]

/-- IP_A with byte 0 (version and ihl) and the protocol given: 192.168.1.10 to 192.168.1.20. -/
def ipA (vihl proto : Byte) : List Byte :=
  [vihl, 0, 0, 0x28, 0, 1, 0, 0, 0x40, proto, 0, 0, 0xc0, 0xa8, 1, 0x0a, 0xc0, 0xa8, 1, 0x14]

/-- TCP_A with the data_offset byte given: ports 1234 and 80, seq 1, ack 0. -/
def tcpA (doff : Byte) : List Byte :=
  [0x04, 0xd2, 0, 0x50, 0, 0, 0, 1, 0, 0, 0, 0, doff, 0x10, 0x20, 0, 0, 0, 0, 0]

/-- Frame S2, 54 bytes. -/
def s2 : List Byte := ethA ++ ipA 0x45 6 ++ tcpA 0x50

/-- Frame V3, 14 bytes. -/
def v3 : List Byte := [0xff, 0xff, 0xff, 0xff, 0xff, 0xff, 0x02, 0, 0, 0, 0, 0x01, 0x08, 0x06]

/-- Frame V31, 71 bytes: options in both headers, a payload of five bytes. -/
def v31 : List Byte :=
  ethA ++ ipA 0x46 6 ++ [1, 1, 1, 0] ++
    [0, 0, 0xff, 0xff, 0xff, 0xff, 0xff, 0xff, 0xff, 0xff, 0xff, 0xfe, 0x70, 0x10, 0x20, 0, 0, 0, 0, 0] ++
    [1, 1, 1, 1, 1, 1, 1, 0] ++ [0x48, 0x65, 0x6c, 0x6c, 0x6f]

/-- The buffer that holds a frame from an index on. -/
def cells (a : Nat) : List Byte → Memory
  | [] => []
  | b :: f => (a, b) :: cells (a + 1) f

/-- A state in a phase with a frame loaded; everything else as after reset. -/
def at_ (p : Phase) (f : List Byte) : State :=
  { State.reset with fb := cells 0 f, frameLen := f.length, phase := p }

/-- A state in a phase with a frame of n bytes of which none is loaded. -/
def long (p : Phase) (n : Nat) : State := { State.reset with frameLen := n, phase := p }

/-- The same with a record in the result registers. -/
def holding (r : DecodeRecord) (s : State) : State :=
  { s with regs := r.regs, depth := r.depth, stopReason := r.stopReason }

/-- In P3 of the decode of f. -/
def inP3 (f : List Byte) : State := holding (recordEth .dstFirst (at_ .p3 f).byte) (at_ .p3 f)

/-- In P4 of the decode of f. -/
def inP4 (f : List Byte) : State := { inP3 f with phase := .p4 }

/-- In P5 of the decode of f, W_IPHL given. -/
def inP5 (f : List Byte) (hl : HdrLen) : State := { inP3 f with phase := .p5, wIphl := hl }

/-- In P6 of the decode of f. -/
def inP6 (f : List Byte) (hl : HdrLen) : State :=
  { holding (recordIp .dstFirst (at_ .p6 f).byte) (at_ .p6 f) with wIphl := hl }

/-- In P7 of the decode of f. -/
def inP7 (f : List Byte) (hl : HdrLen) : State := { inP6 f hl with phase := .p7 }

/-- In P8 of the decode of f, W_TCPHL given. -/
def inP8 (f : List Byte) (hl tl : HdrLen) : State := { inP6 f hl with phase := .p8, wTcphl := tl }

/-- The next state, if there is one. -/
def after (r : Result) : Option State :=
  match r with
  | .next s => some s
  | .fault _ => none
  | .refused _ => none

/-- The same outcome: a next state, the fault or the refusal. -/
def stops (r : Result) : Option (Fault ⊕ Refusal) :=
  match r with
  | .next _ => none
  | .fault f => some (.inl f)
  | .refused f => some (.inr f)

/-! ## WellFormed: an ill-formed term for each check -/

/-- HLOAD of an index at MAX_FRAME (R191), at the default and in a smaller instance (U15). -/
theorem test_wf_refuses_hload :
    (Instr.hload 65536 0).wf 65536 = false ∧ (Instr.hload 65535 0).wf 65536 = true ∧
      (Instr.hload 1518 0).wf 1518 = false ∧ (Instr.hload 1517 0).wf 1518 = true := by decide

/-- HSETLEN of a value at 2^LEN_W (R192). -/
theorem test_wf_refuses_hsetlen : (Instr.hsetlen 131072).wf 65536 = false ∧ (Instr.hsetlen 131071).wf 65536 = true := by decide

/-- HREADFB of an index at MAX_FRAME (R195). -/
theorem test_wf_refuses_hreadfb : (Instr.hreadfb 65536).wf 65536 = false ∧ (Instr.hreadfb 65535).wf 65536 = true := by decide

/-- An `ihl` of 4 (R97, C1). -/
theorem test_wf_refuses_ihl : (Instr.ihlLegal 4).wf 65536 = false ∧ (Instr.ihlLegal 5).wf 65536 = true := by decide

/-- A `data_offset` of 4 (R102). -/
theorem test_wf_refuses_data_offset :
    (Instr.dataOffsetLegal 4).wf 65536 = false ∧ (Instr.dataOffsetLegal 5).wf 65536 = true := by decide

/-! ## Decode: words written out from the spec's encodings -/

/-- The PHASE codes of R40 and R111. -/
theorem test_decode_phase_codes :
    decode 65536 (.phase 0b0001#4) = .instr .chketh ∧ decode 65536 (.phase 0b0010#4) = .instr .exteth ∧
    decode 65536 (.phase 0b0011#4) = .instr .selip ∧ decode 65536 (.phase 0b0100#4) = .instr .decihl ∧
    decode 65536 (.phase 0b0101#4) = .instr .extip ∧ decode 65536 (.phase 0b0110#4) = .instr .seltcp ∧
    decode 65536 (.phase 0b0111#4) = .instr .decdoff ∧ decode 65536 (.phase 0b1000#4) = .instr .exttcp := by decide

/-- IDLE, DONE and the unreachable codes name no operation (R40, U9). -/
theorem test_decode_no_operation :
    ∀ c : BitVec 4, c = 0 ∨ 9 ≤ c.toNat → decode 65536 (.phase c) = .rejected (.notAnOperation c) := by decide

/-- The host accesses of R115. -/
theorem test_decode_accesses :
    decode 65536 (.access .resetEvent) = .instr .hreset ∧ decode 65536 (.access (.writeFb 12 0x08)) = .instr (.hload 12 0x08) ∧
    decode 65536 (.access (.writeReg 18 54)) = .instr (.hsetlen 54) ∧ decode 65536 (.access (.writeReg 16 1)) = .instr .hstart ∧
    decode 65536 (.access (.readReg 17)) = .instr (.hread .status) ∧ decode 65536 (.access (.readFb 54)) = .instr (.hreadfb 54) := by
  decide

/-- Every register number of R21 and R30 names its register, and 22 none. -/
theorem test_decode_register_numbers :
    (List.range 23).map Reg.ofNumber =
      [some .ethDst, some .ethSrc, some .ethType, some .ipVihl, some .ipHlen, some .ipProto, some .ipSrc, some .ipDst,
        some .tcpSport, some .tcpDport, some .tcpSeq, some .tcpAck, some .tcpDoff, some .payOff, some .payLen,
        some .reserved15, some .ctrl, some .status, some .frameLen, some .depth, some .stopReason, some .flags, none] := by
  decide

/-- Accesses that are no command (R31, U7, U8, U10). -/
theorem test_decode_no_command :
    decode 65536 (.access (.writeReg 16 0)) = .rejected .noCommand ∧ decode 65536 (.access (.writeReg 15 7)) = .rejected .noCommand ∧
    decode 65536 (.access (.writeReg 22 1)) = .rejected (.noSuchRegister 22) ∧
    decode 65536 (.access (.readReg 22)) = .rejected (.noSuchRegister 22) ∧
    decode 65536 (.access (.writeFb 65536 0)) = .rejected (.noSuchByte 65536) ∧
    decode 65536 (.access (.readFb 65536)) = .rejected (.noSuchByte 65536) ∧
    decode 65536 (.access (.writeReg 18 131072)) = .rejected (.lengthNotRepresentable 131072) := by decide

/-- The selectors of R93, R96 to R98 and R101, R102: bytes `08 00`, `45`, `06`, `5f`. -/
theorem test_decode_selectors :
    decode 65536 (.etherTypeBytes 0x08 0x00) = .instr .ethertypeIpv4 ∧ decode 65536 (.vihlByte 0x45) = .instr (.ihlLegal 5) ∧
    decode 65536 (.protocolByte 0x06) = .instr .protocolTcp ∧ decode 65536 (.dataOffsetByte 0x5f) = .instr (.dataOffsetLegal 5) ∧
    decode 65536 (.vihlByte 0x6f) = .instr (.ihlLegal 15) ∧ decode 65536 (.dataOffsetByte 0xf0) = .instr (.dataOffsetLegal 15) := by
  decide

/-- Values that select nothing (R93, R97, R98, R102; V5, V14, V24). -/
theorem test_decode_no_selector :
    decode 65536 (.etherTypeBytes 0x00 0x08) = .rejected (.unsupportedEtherType 0x0008) ∧
    decode 65536 (.vihlByte 0x44) = .rejected (.illegalIhl 4) ∧
    decode 65536 (.protocolByte 17) = .rejected (.unsupportedProtocol 17) ∧
    decode 65536 (.dataOffsetByte 0x4f) = .rejected (.illegalDataOffset 4) := by decide

/-- The table's words (spec/opcode_table.json): matches 1 to 8, 0x0800, and HREAD's r. -/
theorem test_decode_table_words :
    (List.range 10).map (decodeTableWord 8) =
      [none, some .chketh, some .exteth, some .selip, some .decihl, some .extip, some .seltcp, some .decdoff, some .exttcp,
        none] ∧
    decodeTableWord 16 0x0800 = some .ethertypeIpv4 ∧ decodeTableWord 16 0x0806 = none ∧
    decodeTableWord 24 21 = some (.hread .flags) ∧ decodeTableWord 24 22 = none := by decide

/-! ## Step and fetch -/

/-- A PHASE word placed after reset is the instruction the next step runs. -/
theorem test_withFetchWord_runs_operations :
    step (State.reset.withFetchWord 8 1) = exec .chketh (long .p1 0) ∧
    step (State.reset.withFetchWord 8 2) = exec .exteth (long .p2 14) ∧
    step (State.reset.withFetchWord 8 3) = exec .selip (long .p3 14) ∧
    step (State.reset.withFetchWord 8 4) = exec .decihl (long .p4 34) ∧
    step (State.reset.withFetchWord 8 5) = exec .extip (long .p5 34) ∧
    step (State.reset.withFetchWord 8 6) = exec .seltcp (long .p6 34) ∧
    step (State.reset.withFetchWord 8 7) = exec .decdoff (long .p7 54) ∧
    step (State.reset.withFetchWord 8 8) = exec .exttcp (long .p8 54) := ⟨rfl, rfl, rfl, rfl, rfl, rfl, rfl, rfl⟩

/-- The ether-type word placed after reset is met by P3, which then does what the selector does; and HREAD's word is a
host access. -/
theorem test_withFetchWord_runs_the_others :
    (let s := { State.reset.withFetchWord 16 0x0800 with script := [] }
     step (State.reset.withFetchWord 16 0x0800) = exec .ethertypeIpv4 s ∧ s.byte 12 = 0x08 ∧ s.byte 13 = 0x00) ∧
    step (State.reset.withFetchWord 24 18) = exec (.hread .frameLen) State.reset := ⟨⟨rfl, rfl, rfl⟩, rfl⟩

/-- After reset the engine starts nothing on its own (R302), and a write of 0 to CTRL does nothing (R31). -/
theorem test_step_after_reset :
    step State.reset = .refused .noEnabledStep ∧
    step { State.reset with script := [.issue (.writeReg 16 0)] } = .next State.reset := ⟨rfl, rfl⟩

/-- HWAIT reads STATUS until DONE reads 1 (R118). -/
theorem test_step_wait :
    step { long .p1 14 with script := [.wait] } = .next { long .p1 14 with script := [.yield, .wait], replies := [1] } ∧
    step { long .done 14 with script := [.wait] } = .next { long .done 14 with replies := [2] } := ⟨rfl, rfl⟩

/-- Refused host commands are no step (Program E; U1, U3, U7, U8). -/
theorem test_refusals :
    exec .hstart (long .idle 70000) = .refused .frameLenExceedsMax ∧
    exec .hstart (long .p3 14) = .refused .hstartWhileBusy ∧
    exec (.hload 0 1) (long .p8 14) = .refused .hloadWhileBusy ∧
    exec (.hsetlen 0) (long .p1 14) = .refused .hsetlenWhileBusy ∧
    exec (.hload 65536 1) State.reset = .refused (.noSuchByte 65536) ∧
    exec (.hreadfb 65536) State.reset = .refused (.noSuchByte 65536) := ⟨rfl, rfl, rfl, rfl, rfl, rfl⟩

/-- An instance with MAX_FRAME = 1518, so LEN_W = 11 (R7, U15): its last byte, its longest admissible frame and its longest
representable length are taken, and one more is refused. -/
theorem test_small_instance :
    let s := { State.reset with maxFrame := 1518 }
    after (exec (.hload 1517 7) s) = some { s with fb := [(1517, 7)] } ∧
    exec (.hload 1518 7) s = .refused (.noSuchByte 1518) ∧
    after (exec (.hsetlen 2047) s) = some { s with frameLen := 2047 } ∧
    exec (.hsetlen 2048) s = .refused (.lengthNotRepresentable 2048) ∧
    after (exec .hstart { s with frameLen := 1518 }) = some { s with frameLen := 1518, phase := .p1 } ∧
    exec .hstart { s with frameLen := 1519 } = .refused .frameLenExceedsMax := ⟨rfl, rfl, rfl, rfl, rfl, rfl⟩

/-- LEN_W, the least W with 2^W > MAX_FRAME (R7): a length of exactly 65536 needs 17 bits. -/
theorem test_lenW :
    Config.lenWOf 65536 = 17 ∧ Config.lenWOf 65535 = 16 ∧ Config.lenWOf 1518 = 11 ∧ Config.lenWOf 1 = 1 ∧
      Config.lenWOf 0 = 0 := by decide

/-! ## The parse operations, one step each -/

/-- R130, V2 and S1: length 13 stops with reason 1, length 14 passes. -/
theorem test_chketh :
    exec .chketh (long .p1 13) = .next { long .p1 13 with stopReason := .truncatedFrame, phase := .done } ∧
    exec .chketh (long .p1 14) = .next (long .p2 14) := ⟨rfl, rfl⟩

/-- V3 and R131's example. -/
theorem test_exteth_v3 :
    (after (exec .exteth (at_ .p2 v3))).map (fun s => (s.regs.ethDst, s.regs.ethSrc, s.regs.ethType, s.depth, s.phase)) =
      some (0xffffffffffff, 0x020000000001, 0x0806, .eth, .p3) := by decide

/-- V4: the same frame with MAC_ORDER = SRC_FIRST. -/
theorem test_exteth_v4 :
    (after (exec .exteth { at_ .p2 v3 with macOrder := .srcFirst })).map (fun s => (s.regs.ethDst, s.regs.ethSrc)) =
      some (0x020000000001, 0xffffffffffff) := by decide

/-- R280's first example (V8): a 20-byte frame with ether-type 0x86DD reports 2, not 3. -/
theorem test_selip_v8 :
    (after (exec .selip { long .p3 20 with regs := { Results.zero with ethType := 0x86dd } })).map
      (fun s => (s.stopReason, s.phase)) = some (.unsupportedEtherType, .done) := by decide

/-- V7 and V10: ether-type 0x0800 with length 33 stops with reason 3, with length 34 passes. -/
theorem test_selip_v7 :
    let s := fun n => { long .p3 n with regs := { Results.zero with ethType := 0x0800 } }
    (after (exec .selip (s 33))).map (·.stopReason) = some .invalidOrTruncatedIpHeader ∧
    (after (exec .selip (s 34))).map (·.phase) = some .p4 := by decide

/-- R150's example (byte 14 = 0x46, length 60: W_IPHL = 24), and V14: `ihl` 4 is illegal. -/
theorem test_decihl_values :
    let s := fun b n => { long .p4 n with fb := [(14, b)] }
    (after (exec .decihl (s 0x46 60))).map (fun s => (s.wIphl, s.phase)) = some (24, .p5) ∧
    (after (exec .decihl (s 0x44 60))).map (fun s => (s.wIphl, s.stopReason)) = some (0, .invalidOrTruncatedIpHeader) := by
  decide

/-- V15 and V16: `ihl` 15 stops at length 73 and passes at 74. -/
theorem test_decihl_boundary :
    let s := fun n => { long .p4 n with fb := [(14, 0x4f)] }
    (after (exec .decihl (s 73))).map (·.stopReason) = some .invalidOrTruncatedIpHeader ∧
    (after (exec .decihl (s 74))).map (·.wIphl) = some 60 := by decide

/-- R151's example. -/
theorem test_extip :
    let t := after (exec .extip (inP5 s2 20))
    t.map (fun s => (s.regs.ipVihl, s.regs.ipHlen, s.regs.ipProto)) = some (0x45, 20, 6) ∧
    t.map (fun s => (s.regs.ipSrc, s.regs.ipDst)) = some (0xc0a8010a, 0xc0a80114) ∧
    t.map (fun s => (s.depth, s.phase)) = some (.ethIp, .p6) := by decide

/-- R280's third example (V22): 40 bytes, protocol 17 reports 4, not 5. -/
theorem test_seltcp_v22 :
    (after (exec .seltcp { long .p6 40 with wIphl := 20, regs := { Results.zero with ipProto := 17 } })).map
      (fun s => (s.stopReason, s.phase)) = some (.unsupportedIpProtocol, .done) := by decide

/-- V21 and S2: length 53 stops with reason 5, length 54 passes. -/
theorem test_seltcp_v21 :
    let s := fun n => { long .p6 n with wIphl := 20, regs := { Results.zero with ipProto := 6 } }
    (after (exec .seltcp (s 53))).map (·.stopReason) = some .invalidOrTruncatedTcpHeader ∧
    (after (exec .seltcp (s 54))).map (·.phase) = some .p7 := by decide

/-- R170's example (V30: byte 46 = 0x80, length 66, W_TCPHL = 32), and V24: `data_offset` 4 is illegal. -/
theorem test_decdoff_values :
    let s := fun b n => { long .p7 n with fb := [(46, b)], wIphl := 20 }
    (after (exec .decdoff (s 0x80 66))).map (fun s => (s.wTcphl, s.phase)) = some (32, .p8) ∧
    (after (exec .decdoff (s 0x40 60))).map (fun s => (s.wTcphl, s.stopReason)) = some (0, .invalidOrTruncatedTcpHeader) := by
  decide

/-- V28 and V29: both headers at their maximum; length 133 stops, 134 passes. -/
theorem test_decdoff_boundary :
    let s := fun n => { long .p7 n with fb := [(86, 0xf0)], wIphl := 60 }
    (after (exec .decdoff (s 133))).map (·.stopReason) = some .invalidOrTruncatedTcpHeader ∧
    (after (exec .decdoff (s 134))).map (·.wTcphl) = some 60 := by decide

/-- V31: variable offsets in both headers. -/
theorem test_exttcp_v31 :
    let t := after (exec .exttcp (inP8 v31 24 28))
    t.map (fun s => (s.regs.tcpSport, s.regs.tcpDport, s.regs.tcpSeq, s.regs.tcpAck, s.regs.tcpDoff)) =
      some (0, 65535, 0xffffffff, 0xfffffffe, 7) ∧
    t.map (fun s => (s.regs.payOff, s.regs.payLen, s.flags)) = some (66, 5, 0b1111) := by decide

/-- V33: the largest frame; PAY_OFF + PAY_LEN needs the 17th bit. -/
theorem test_exttcp_v33 :
    (after (exec .exttcp { long .p8 65536 with fb := cells 0 s2, wIphl := 20, wTcphl := 20 })).map
      (fun s => (s.regs.tcpSport, s.regs.payOff, s.regs.payLen, s.phase)) = some (1234, 54, 65482, .done) := by decide

/-! ## The selectors, one step each -/

/-- ETHERTYPE.IPV4 leads to P4 (R110), and does not apply to 0x0806. -/
theorem test_ethertypeIpv4 :
    (after (exec .ethertypeIpv4 (inP3 s2))).map (·.phase) = some .p4 ∧
    stops (exec .ethertypeIpv4 (inP3 v3)) = some (.inr .selectorAbsent) := by decide

/-- IHL.LEGAL with the frame's nibble leads to P5 with W_IPHL = 20. -/
theorem test_ihlLegal :
    (after (exec (.ihlLegal 5) (inP4 s2))).map (fun s => (s.wIphl, s.phase)) = some (20, .p5) ∧
    stops (exec (.ihlLegal 6) (inP4 s2)) = some (.inr .selectorAbsent) := by decide

/-- PROTOCOL.TCP leads to P7 (R110). -/
theorem test_protocolTcp : (after (exec .protocolTcp (inP6 s2 20))).map (·.phase) = some .p7 := by decide

/-- DATA_OFFSET.LEGAL with the frame's nibble leads to P8 with W_TCPHL = 28 (V31). -/
theorem test_dataOffsetLegal :
    (after (exec (.dataOffsetLegal 7) (inP7 v31 24))).map (fun s => (s.wTcphl, s.phase)) = some (28, .p8) := by decide

/-! ## The host commands, one step each -/

/-- HV8: HRESET during a decode leaves nothing of it. -/
theorem test_hreset :
    let t := after (exec .hreset (inP6 s2 20))
    t.map (·.record) = some DecodeRecord.start ∧ t.map (fun s => (s.phase, s.frameLen, s.wIphl)) = some (.idle, 0, 0) ∧
    t.map (·.fb) = some [] := by decide

/-- R191's example: `HLOAD 12, 0x08` and `HLOAD 13, 0x00` make be16(12) = 0x0800. -/
theorem test_hload :
    ((after (exec (.hload 13 0x00) State.reset)).bind fun s => after (exec (.hload 12 0x08) s)).map
      (fun s => (be16 s.byte 12, s.fb)) = some (0x0800, [(12, 0x08), (13, 0x00)]) := by decide

/-- HV6: a byte loaded in DONE replaces the one before and leaves the results. -/
theorem test_hload_in_done :
    let s := { inP8 v31 24 28 with phase := .done }
    let t := after (exec (.hload 66 0xaa) s)
    t.map (fun t => (t.byte 66, t.byte 67)) = some (0xaa, 0x65) ∧ t.map (·.record) = some s.record := by decide

/-- HV3: a length above MAX_FRAME can be written. -/
theorem test_hsetlen :
    (after (exec (.hsetlen 65537) State.reset)).map (·.frameLen) = some 65537 ∧
    (after (exec (.hsetlen 54) State.reset)).map (·.len) = some 54 := by decide

/-- R193's example: from DONE with DEPTH 3. -/
theorem test_hstart :
    (after (exec .hstart { inP8 s2 20 20 with phase := .done, depth := .ethIpTcp })).map
      (fun s => (s.phase, s.depth, s.regs, s.wIphl, s.status)) = some (.p1, .none, Results.zero, 0, 1) := by decide

/-- HV5 and R194's example: results are read in DONE, CTRL and register 15 read 0. -/
theorem test_hread :
    let s := { inP6 s2 20 with phase := .done }
    (after (exec (.hread .ipSrc) s)).map (·.replies) = some [0xc0a8010a] ∧
    (after (exec (.hread .flags) s)).map (·.replies) = some [0b0011] ∧
    (after (exec (.hread .status) s)).map (·.replies) = some [0b10] ∧
    (after (exec (.hread .ctrl) s)).map (·.replies) = some [0] ∧
    (after (exec (.hread .reserved15) s)).map (·.replies) = some [0] := by decide

/-- STATUS and FRAME_LEN are read while BUSY too (R194). -/
theorem test_hread_busy :
    (after (exec (.hread .status) (long .p5 34))).map (·.replies) = some [0b01] ∧
    (after (exec (.hread .frameLen) (long .p5 34))).map (·.replies) = some [34] := by decide

/-- Program D: HREADFB 66 of frame V31 returns 0x48, in DONE and while BUSY. -/
theorem test_hreadfb :
    (after (exec (.hreadfb 66) (at_ .done v31))).map (·.replies) = some [0x48] ∧
    (after (exec (.hreadfb 66) (at_ .p1 v31))).map (·.replies) = some [0x48] := by decide

/-! ## The whole decode 65536 (R210) on the spec's frames -/

/-- A frame as a buffer. -/
def bytesOf (f : List Byte) (a : Nat) : Byte := f.getD a 0

/-- S2. -/
theorem test_decodeFrame_s2 :
    decodeFrame .dstFirst (bytesOf s2) 54 =
      ⟨.ethIpTcp, .none,
        { ethDst := 0x020000000002, ethSrc := 0x020000000001, ethType := 0x0800, ipVihl := 0x45, ipHlen := 20, ipProto := 6
          ipSrc := 0xc0a8010a, ipDst := 0xc0a80114, tcpSport := 1234, tcpDport := 80, tcpSeq := 1, tcpAck := 0
          tcpDoff := 5, payOff := 54, payLen := 0 }⟩ ∧
    decodeOps (bytesOf s2) 54 = 8 ∧ (decodeReads (bytesOf s2) 54).length = 37 := by decide

/-- V1, S1, V12 (`ihl` 3), V10 (protocol 17), V20 and V23: one vector for each shallower end. -/
theorem test_decodeFrame_stops :
    let r := fun f => (decodeFrame .dstFirst (bytesOf f) f.length)
    let d := fun f => ((r f).depth, (r f).stopReason, decodeOps (bytesOf f) f.length)
    d [] = (.none, .truncatedFrame, 1) ∧
    d (List.replicate 14 0) = (.eth, .unsupportedEtherType, 3) ∧
    d ethA = (.eth, .invalidOrTruncatedIpHeader, 3) ∧
    d (ethA ++ ipA 0x43 17 ++ [0, 0, 0, 0, 0, 0]) = (.eth, .invalidOrTruncatedIpHeader, 4) ∧
    d (ethA ++ ipA 0x45 17) = (.ethIp, .unsupportedIpProtocol, 6) ∧
    d (ethA ++ ipA 0x45 6) = (.ethIp, .invalidOrTruncatedTcpHeader, 6) ∧
    d (ethA ++ ipA 0x45 6 ++ tcpA 0x00) = (.ethIp, .invalidOrTruncatedTcpHeader, 7) := by decide

/-! ## The Renderer's formats (spec/95_test_vectors.md 2.6) -/

theorem test_render_addresses :
    macText 0xabcdef012345 = "ab:cd:ef:01:23:45".toList ∧ etherTypeText 0x86dd = "0x86dd".toList ∧
    etherTypeText 0x0008 = "0x0008".toList ∧ ipText 0xc0a8010a = "192.168.1.10".toList ∧
    ipText 0 = "0.0.0.0".toList ∧ ipText 0x0a000001 = "10.0.0.1".toList := by decide

theorem test_render_decimals :
    dec 0 = "0".toList ∧ dec 17 = "17".toList ∧ dec 255 = "255".toList ∧ dec 60 = "60".toList ∧
    dec 65535 = "65535".toList ∧ dec 4294967295 = "4294967295".toList := by decide

theorem test_dump_sixteen :
    dumpRows [0x47, 0x45, 0x54, 0x20, 0x2f, 0x20, 0x48, 0x54, 0x54, 0x50, 0x2f, 0x31, 0x2e, 0x31, 0x0d, 0x0a] =
      ["0000 47 45 54 20 2f 20 48 54 54 50 2f 31 2e 31 0d 0a GET / HTTP/1.1..".toList] := by decide

theorem test_dump_five :
    dumpRows [0x48, 0x65, 0x6c, 0x6c, 0x6f] = ["0000 48 65 6c 6c 6f                                  Hello".toList] := by
  decide

theorem test_dump_seventeen :
    (dumpRows [0x1f, 0x20, 0x7e, 0x7f, 0x80, 0xff, 0x2e, 0x41, 0x61, 0x30, 0x00, 0x0a, 0x0d, 0x09, 0x5c, 0x27, 0x7a]).map
      (fun row => (row.length, row.drop 53)) =
      [(69, ['.', ' ', '~', '.', '.', '.', '.', 'A', 'a', '0', '.', '.', '.', '.', '\\', '\'']), (54, ['z'])] := by decide

/-- EOL is the newline where it is not set (R241): the marker line of a frame too short ends with it. -/
theorem test_render_default_eol :
    let p : RenderParams :=
      { macSrcFirst := true, lblSrcMac := [], lblDstMac := [], lblEtherType := [], endEth := [], lblIpSrc := [], lblIpDst := []
        lblProtocol := [], lblIpHlen := [], endIp := [], lblSport := [], lblDport := [], lblSeq := [], lblAck := []
        endTcp := [], markerText := ['-'] }
    render p .tooShort [] = ['-', '\n'] := by decide

/-! ## Witnesses: a state and operands that meet each statement's hypotheses -/

/-- Inv in P1. -/
theorem inv_p1 : Inv (at_ .p1 s2) := ⟨by decide, fun _ => by decide, by decide, ⟨rfl, rfl, rfl⟩⟩

/-- Inv in P3, for a frame that goes on and for one that stops there. -/
theorem inv_p3 : Inv (inP3 s2) ∧ Inv (inP3 v3) :=
  ⟨⟨by decide, fun _ => by decide, by decide, ⟨rfl, (by decide : 14 ≤ (inP3 s2).len), rfl, rfl⟩⟩,
    ⟨by decide, fun _ => by decide, by decide, ⟨rfl, (by decide : 14 ≤ (inP3 v3).len), rfl, rfl⟩⟩⟩

/-- Inv in P4. -/
theorem inv_p4 : Inv (inP4 s2) := ⟨by decide, fun _ => by decide, by decide, ⟨rfl, ⟨rfl, by decide⟩, rfl, rfl⟩⟩

/-- Inv in P5. -/
theorem inv_p5 : Inv (inP5 s2 20) :=
  ⟨by decide, fun _ => by decide, by decide, ⟨rfl, ⟨rfl, by decide⟩, ⟨by decide, by decide, rfl⟩, rfl⟩⟩

/-- Inv in P6. -/
theorem inv_p6 : Inv (inP6 s2 20) :=
  ⟨by decide, fun _ => by decide, by decide, ⟨rfl, ⟨rfl, by decide⟩, ⟨by decide, by decide, rfl⟩, rfl⟩⟩

/-- Inv in P7. -/
theorem inv_p7 : Inv (inP7 s2 20) :=
  ⟨by decide, fun _ => by decide, by decide, ⟨rfl, ⟨rfl, by decide⟩, ⟨by decide, by decide, rfl⟩, ⟨rfl, by decide⟩, rfl⟩⟩

/-- Inv in P8. -/
theorem inv_p8 : Inv (inP8 s2 20 20) :=
  ⟨by decide, fun _ => by decide, by decide,
    ⟨rfl, ⟨rfl, by decide⟩, ⟨by decide, by decide, rfl⟩, ⟨rfl, by decide⟩, ⟨by decide, by decide, rfl⟩⟩⟩

/-- Inv in DONE. -/
theorem inv_done : Inv (holding (decodeFrame .dstFirst (bytesOf s2) 54) (at_ .done s2)) :=
  ⟨by decide, (fun h => by cases h), by decide, ⟨bytesOf s2, 54, by decide, rfl⟩⟩

theorem test_witness_LenWIsTheLeastWidth : 65536 < 2 ^ 17 ∧ ¬ 65536 < 2 ^ 16 := by decide

theorem test_witness_DecodeEncodeRoundTrip :
    (Instr.hload 65535 0xff).wf 65536 ∧ (Instr.hsetlen 131071).wf 65536 ∧ (Instr.hreadfb 0).wf 65536 ∧ (Instr.ihlLegal 5).wf 65536 ∧
      (Instr.dataOffsetLegal 15).wf 65536 := by decide

theorem test_witness_DecodedInstructionsAreWellFormed :
    decode 65536 (.vihlByte 0xf5) = .instr (.ihlLegal 5) ∧ 9 ≤ (9#4).toNat ∧ 2 ^ Config.lenWOf 65536 ≤ 131072 ∧
      (0x08#8) ++ (0x01#8) ≠ 0x0800#16 ∧ (0xf4 : Byte).toNat % 16 < 5 ∧ (7 : Byte) ≠ 6 ∧ (0x4f : Byte).toNat / 16 < 5 := by
  decide

theorem test_witness_StepRunsTheDecodedInstruction :
    ((long .p8 54).script = [] ∧ decode 65536 (.phase (long .p8 54).phase.code) = .instr .exttcp) ∧
    (let s := { long .p1 0 with script := [.yield] }
     s.script = .yield :: [] ∧ decode 65536 (.phase s.phase.code) = .instr .chketh) ∧
    (let s := { State.reset with script := [.yield, .wait] }
     s.script = .yield :: [.wait] ∧ s.busy = false) ∧
    decode 65536 (.access (.writeReg 16 1)) = .instr .hstart ∧ decode 65536 (.access (.writeReg 15 1)) = .rejected .noCommand := by
  decide

/-- Its clauses about accesses that do not exist, each at the least such value. -/
theorem test_witness_StepRunsTheDecodedInstruction_absent :
    let s := fun (a : Access) => { State.reset with script := [.issue a] }
    step (s (.readReg 22)) = .refused (.noSuchRegister 22) ∧ step (s (.writeReg 22 1)) = .refused (.noSuchRegister 22) ∧
    step (s (.writeFb 65536 0)) = .refused (.noSuchByte 65536) ∧ step (s (.readFb 65536)) = .refused (.noSuchByte 65536) ∧
    step (s (.writeReg 18 131072)) = .refused (.lengthNotRepresentable 131072) := ⟨rfl, rfl, rfl, rfl, rfl⟩

theorem test_witness_EngineStepsExactlyWhileBusy :
    ((long .p1 0).script = [] ∧ (long .p1 0).busy = true) ∧ (long .p8 0).busy = true ∧ (long .idle 0).busy = false ∧
      (long .done 0).busy = false := by decide

/-- Both sides of the equivalence, at the first byte past the frame (R13): P4 and P5. -/
theorem test_witness_FaultsAreExactlyReadsPastTheFrame :
    exec .decihl (long .p4 14) = .fault (.outOfRangeRead 14 1) ∧ (after (exec .decihl (long .p4 15))).isSome ∧
    exec .extip (long .p5 33) = .fault (.outOfRangeRead 30 4) ∧ exec .extip (long .p5 26) = .fault (.outOfRangeRead 26 4) := by
  refine ⟨rfl, ?_, rfl, rfl⟩
  simp [exec, execDecihl, whenPhase, after, long, memRead8, guardRead, State.len, l3, Config.ethHlen, bind, Except.bind, pure,
    Except.pure, State.reset]

theorem test_witness_ChkethResult :
    ((long .p1 13).phase = .p1 ∧ (long .p1 13).len < 14) ∧ ((long .p1 14).phase = .p1 ∧ 14 ≤ (long .p1 14).len) := by
  decide

theorem test_witness_ExtethResult :
    let s := at_ .p2 v3
    (s.phase = .p2 ∧ 14 ≤ s.len ∧ s.macOrder = .dstFirst) ∧
      (14 ≤ State.len { s with macOrder := .srcFirst } ∧ { s with macOrder := .srcFirst }.macOrder = .srcFirst) := by
  decide

theorem test_witness_SelipResult :
    let s := fun ty n => { long .p3 n with regs := { Results.zero with ethType := ty } }
    ((s 0x0801 14).phase = .p3 ∧ (s 0x0801 14).regs.ethType ≠ 0x0800) ∧
    ((s 0x0800 33).regs.ethType = 0x0800 ∧ (s 0x0800 33).len < 34) ∧
    ((s 0x0800 34).regs.ethType = 0x0800 ∧ 34 ≤ (s 0x0800 34).len) := by decide

theorem test_witness_DecihlResult :
    let s := fun b n => { long .p4 n with fb := [(14, b)] }
    ((s 0x44 15).phase = .p4 ∧ 15 ≤ (s 0x44 15).len ∧ 4 * (((s 0x44 15).byte 14).toNat % 16) < 20) ∧
    14 + 4 * (((s 0x4f 73).byte 14).toNat % 16) > (s 0x4f 73).len ∧
    (20 ≤ 4 * (((s 0x4f 74).byte 14).toNat % 16) ∧ 14 + 4 * (((s 0x4f 74).byte 14).toNat % 16) ≤ (s 0x4f 74).len) := by decide

theorem test_witness_ExtipResult : (inP5 s2 20).phase = .p5 ∧ 34 ≤ (inP5 s2 20).len := by decide

theorem test_witness_SeltcpResult :
    let s := fun p n => { long .p6 n with wIphl := 20, regs := { Results.zero with ipProto := p } }
    ((s 17 40).phase = .p6 ∧ (s 17 40).regs.ipProto ≠ 6) ∧
    ((s 6 53).regs.ipProto = 6 ∧ 14 + (s 6 53).wIphl.toNat + 20 > (s 6 53).len) ∧
    ((s 6 54).regs.ipProto = 6 ∧ 14 + (s 6 54).wIphl.toNat + 20 ≤ (s 6 54).len) := by decide

theorem test_witness_DecdoffResult :
    let s := fun b n => { long .p7 n with fb := [(86, b)], wIphl := 60 }
    ((s 0x4f 94).phase = .p7 ∧ 14 + (s 0x4f 94).wIphl.toNat + 13 ≤ (s 0x4f 94).len ∧
      4 * (((s 0x4f 94).byte 86).toNat / 16) < 20) ∧
    74 + 4 * (((s 0xf0 133).byte 86).toNat / 16) > (s 0xf0 133).len ∧
    (20 ≤ 4 * (((s 0xf0 134).byte 86).toNat / 16) ∧ 74 + 4 * (((s 0xf0 134).byte 86).toNat / 16) ≤ (s 0xf0 134).len) := by
  decide

theorem test_witness_ExttcpResult :
    let s := inP8 s2 20 20
    s.phase = .p8 ∧ 14 + s.wIphl.toNat + 20 ≤ s.len ∧ 14 + s.wIphl.toNat + s.wTcphl.toNat ≤ s.len := by decide

theorem test_witness_SelectorResults :
    ((inP3 s2).phase = .p3 ∧ (inP3 s2).regs.ethType = 0x0800) ∧
    ((inP4 s2).phase = .p4 ∧ 15 ≤ (inP4 s2).len ∧ ((inP4 s2).byte 14).toNat % 16 = (5#4).toNat) ∧
    ((inP6 s2 20).phase = .p6 ∧ (inP6 s2 20).regs.ipProto = 6) ∧
    ((inP7 s2 20).phase = .p7 ∧ 14 + (inP7 s2 20).wIphl.toNat + 13 ≤ (inP7 s2 20).len ∧
      ((inP7 s2 20).byte 46).toNat / 16 = (5#4).toNat) := by decide

theorem test_witness_ParseOperationsFollowTheFramesSelectors :
    (Inv (inP3 s2) ∧ (inP3 s2).phase = .p3) ∧ (Inv (inP4 s2) ∧ (inP4 s2).phase = .p4) ∧
    (Inv (inP6 s2 20) ∧ (inP6 s2 20).phase = .p6) ∧ (Inv (inP7 s2 20) ∧ (inP7 s2 20).phase = .p7) :=
  ⟨⟨inv_p3.1, rfl⟩, ⟨inv_p4, rfl⟩, ⟨inv_p6, rfl⟩, ⟨inv_p7, rfl⟩⟩

theorem test_witness_HloadResult :
    (State.reset.busy = false ∧ 65535 < State.reset.maxFrame) ∧ (long .p1 0).busy = true ∧
      (State.reset.busy = false ∧ State.reset.maxFrame ≤ 65536) := by
  decide

theorem test_witness_HsetlenResult :
    (State.reset.busy = false ∧ 131071 < 2 ^ State.reset.lenW) ∧ (long .p1 0).busy = true ∧
      (State.reset.busy = false ∧ 2 ^ State.reset.lenW ≤ 131072) := by decide

theorem test_witness_HstartResult :
    ((long .idle 65536).busy = false ∧ (long .idle 65536).len ≤ (long .idle 65536).maxFrame) ∧
      (long .p1 0).busy = true ∧
      ((long .done 65537).busy = false ∧ (long .done 65537).maxFrame < (long .done 65537).len) := by decide

theorem test_witness_HreadResult : (at_ .done s2).busy = false := by decide

theorem test_witness_HreadWhileBusyReturnsAnyValue :
    (inP6 s2 20).busy = true ∧ freeWhileBusy .ipSrc = true ∧ freeWhileBusy .depth = true := by decide

theorem test_witness_HreadfbResult :
    65535 < (long .p3 54).maxFrame ∧ (long .p3 54).maxFrame ≤ 65536 := by decide

theorem test_witness_OnlyTheHostWritesTheFrame :
    after (exec .exteth (at_ .p2 v3)) ≠ none ∧ after (exec (.hload 65535 1) State.reset) ≠ none ∧
      after (exec (.hread .status) State.reset) ≠ none := by decide

theorem test_witness_ResultRegistersHaveOneWriter :
    after (exec .decihl (inP4 s2)) ≠ none ∧ resultWriter .ethDst = some .exteth ∧ resultWriter .payLen = some .exttcp ∧
      Instr.decihl ≠ .exteth ∧ Instr.decihl ≠ .hstart ∧ Instr.decihl ≠ .hreset := by decide

theorem test_witness_DepthStopReasonAndWorkingRegistersHaveTheirWriters :
    (after (exec .decihl (inP4 s2))).map (fun t => (t.depth, t.wIphl)) = some (.eth, 20) ∧ (inP4 s2).wIphl = 0 ∧
      (after (exec .decdoff (inP7 v31 24))).map (·.wTcphl) = some 28 ∧ (inP7 v31 24).wTcphl = 0 ∧
      Instr.decihl ≠ .hstart ∧ Instr.decihl ≠ .hreset := by decide

theorem test_witness_ParametersAndScriptStay :
    after (exec .hreset { long .p1 0 with macOrder := .srcFirst, script := [.wait] }) ≠ none := by decide

theorem test_witness_StopsRecordOnlyTheReason :
    Instr.selip ≠ .exttcp ∧ phaseOf .selip ≠ none ∧ (after (exec .selip (inP3 v3))).map (·.phase) = some .done := by decide

theorem test_witness_ResultsPersistInDone :
    (at_ .done s2).phase = .done ∧ after (exec (.hload 0 1) (at_ .done s2)) ≠ none ∧ Instr.hload 0 1 ≠ .hstart ∧
      Instr.hload 0 1 ≠ .hreset := by decide

theorem test_witness_OperationsRunOnlyInTheirPhase : phaseOf .extip = some .p5 ∧ (long .p4 34).phase ≠ .p5 := by decide

/-- Inv is met in the phases of a decode, and the engine steps there. -/
theorem test_witness_EveryStepKeepsTheInvariant :
    (Inv (inP4 s2) ∧ after (step (inP4 s2)) ≠ none) ∧ (Inv (inP8 s2 20 20) ∧ after (step (inP8 s2 20 20)) ≠ none) ∧
      Inv (inP5 s2 20) :=
  ⟨⟨inv_p4, by decide⟩, ⟨inv_p8, by decide⟩, inv_p5⟩

theorem test_witness_NoRunReadsPastTheFrame : Inv (at_ .p1 s2) ∧ Inv State.reset :=
  ⟨inv_p1, rfl, fun _ => by decide, by decide, ⟨rfl, rfl, rfl⟩⟩

theorem test_witness_FrameBufferKeepsItsCanonicalForm :
    let s := { State.reset with script := [.issue (.writeFb 65535 7)] }
    Memory.wf s.maxFrame s.fb = true ∧ (after (step s)).map (·.fb) = some [(65535, 7)] := by decide

theorem test_witness_PhaseFollowsTheParseGraph :
    phaseOf .exttcp ≠ none ∧ after (exec .exttcp (inP8 s2 20 20)) ≠ none := by decide

theorem test_witness_HostCommandsMovePhaseOnlyByStartAndReset :
    phaseOf .hstart = none ∧ after (exec .hstart (long .done 54)) ≠ none ∧ after (exec .hreset (long .p5 54)) ≠ none := by
  decide

theorem test_witness_DepthNeverDecreasesDuringADecode :
    Inv (inP8 s2 20 20) ∧ phaseOf .exttcp ≠ none ∧ after (exec .exttcp (inP8 s2 20 20)) ≠ none :=
  ⟨inv_p8, by decide, by decide⟩

theorem test_witness_FinishedDecodesAgreeWithTheFrame :
    Inv (inP8 s2 20 20) ∧ phaseOf .exttcp ≠ none ∧
      (after (exec .exttcp (inP8 s2 20 20))).map (fun t => (t.phase, t.depth)) = some (.done, .ethIpTcp) :=
  ⟨inv_p8, by decide, by decide⟩

theorem test_witness_AbsentLayersReadZero :
    Inv (inP3 v3) ∧ validAtDepth .ipSrc = some 2 ∧ (inP3 v3).depth.code.toNat < 2 := ⟨inv_p3.2, by decide, by decide⟩

/-- From IDLE, from DONE at the largest length, and in an instance with a small MAX_FRAME. -/
theorem test_witness_StepsAgreeWithDecode :
    ((at_ .idle s2).busy = false ∧ (at_ .idle s2).len ≤ (at_ .idle s2).maxFrame ∧ (at_ .idle s2).script = []) ∧
      (let s := long .done 65536
       s.busy = false ∧ s.len ≤ s.maxFrame ∧ s.script = []) ∧
      (let s := { at_ .idle s2 with maxFrame := 54 }
       s.busy = false ∧ s.len ≤ s.maxFrame ∧ s.script = []) := by decide

theorem test_witness_DecodesTakeTheTablesOperations :
    (at_ .idle s2).busy = false ∧ (at_ .idle s2).len ≤ (at_ .idle s2).maxFrame ∧ (at_ .idle s2).script = [] ∧
      7 < decodeOps (at_ .idle s2).byte (at_ .idle s2).len := by decide

theorem test_witness_DecodeDependsOnlyOnTheListedBytes :
    ∀ a ∈ decodeReads (bytesOf s2) 54, bytesOf s2 a = bytesOf (s2 ++ [0xff]) a := by decide

theorem test_witness_SourcePropertiesHold :
    (13 : Nat) < 14 ∧ (14 ≤ 14 ∧ (bytesOf v3 12).toNat * 256 + (bytesOf v3 13).toNat ≠ 0x0800) ∧
    (let f := ethA ++ ipA 0x4f 6
     34 ≤ 34 ∧ (bytesOf f 12).toNat * 256 + (bytesOf f 13).toNat = 0x0800 ∧ 4 * ((bytesOf f 14).toNat % 16) > 34 - 14) ∧
    (let f := ethA ++ ipA 0x45 6 ++ tcpA 0xf0
     (bytesOf f 12).toNat * 256 + (bytesOf f 13).toNat = 0x0800 ∧ 20 ≤ 4 * ((bytesOf f 14).toNat % 16) ∧
       bytesOf f 23 = 6 ∧ 34 + 20 ≤ 54 ∧ 4 * ((bytesOf f 46).toNat / 16) > 54 - 34) := by decide

theorem test_witness_HstartForgetsEarlierFrames :
    let s := at_ .idle s2
    let t := holding (recordIp .dstFirst (bytesOf v31)) (at_ .done s2)
    s.busy = false ∧ t.busy = false ∧ s.len ≤ s.maxFrame ∧ s.byte = t.byte ∧ s.frameLen = t.frameLen ∧
      s.maxFrame = t.maxFrame ∧ s.macOrder = t.macOrder := ⟨rfl, rfl, by decide, rfl, rfl, rfl, rfl⟩

theorem test_witness_HostReadsDoNotDisturbTheEngine :
    after (exec (.hread .depth) (inP4 s2)) ≠ none ∧ after (exec (.hreadfb 0) (inP4 s2)) ≠ none ∧
      (phaseOf .decihl ≠ none ∧ SameEngine (inP4 s2) { inP4 s2 with replies := [1] } ∧
        after (exec .decihl (inP4 s2)) ≠ none) := by
  refine ⟨?_, by decide, by decide, ⟨rfl, rfl, rfl, rfl, rfl, rfl, rfl, rfl⟩, by decide⟩
  intro h; cases h

theorem test_witness_SubmitLoadsTheFrameAndStarts :
    let s := { State.reset with script := submit s2 ++ hwait }
    s2.length ≤ s.maxFrame ∧ s.busy = false ∧ s.script = submit s2 ++ hwait := by decide

theorem test_witness_DecodeScriptReturnsTheDecodedFrame :
    let s := { State.reset with script := decodeScript s2 }
    s2.length ≤ s.maxFrame ∧ s.busy = false ∧ s.script = decodeScript s2 := by decide

theorem test_witness_DumpRowsAreAligned : (List.replicate 16 (0 : Byte)).length ≤ 16 := by decide

theorem test_witness_DumpRowCounts :
    let p := List.replicate 17 (0 : Byte)
    ((dumpRows p)[0]? ≠ none ∧ 0 + 1 < (dumpRows p).length) ∧ (16 < p.length ∧ 16 < 128) := by decide

theorem test_witness_DumpIsPrintableAscii :
    (∃ row ∈ dumpRows [0x7f], '.' ∈ row) ∧ (0x20 ≤ (0x20 : Byte).toNat ∧ (0x7e : Byte).toNat ≤ 0x7e) ∧
      (0x1f : Byte).toNat < 0x20 ∧ 0x7e < (0x7f : Byte).toNat := by decide

theorem test_witness_DecimalNumeralsAreExact : (4294967295 : Nat) < 2 ^ 32 ∧ (0 : Nat) < 2 ^ 32 := by decide

end Sys2Proof.Tests
end

section
/-! Proofs. The shared rules of the step: what `fetch` chooses by the host's next line, what the decoder answers to an access
that does not exist, and what `step` makes of it (spec/43_host_commands.md R194, R196; spec/00_scope.md R8). -/

namespace Sys2Proof

/-- Register numbers 22 and above do not exist (R30). -/
theorem Reg.ofNumber_eq_none {k : Nat} (h : 22 ≤ k) : Reg.ofNumber k = none := by
  obtain ⟨j, rfl⟩ := Nat.exists_eq_add_of_le' h
  rfl

theorem decode_readReg_absent (m : Nat) {k : Nat} (h : 22 ≤ k) :
    decode m (.access (.readReg k)) = .rejected (.noSuchRegister k) := by
  simp only [decode, decodeAccess, Reg.ofNumber_eq_none h]

theorem decode_writeReg_absent (m v : Nat) {k : Nat} (h : 22 ≤ k) :
    decode m (.access (.writeReg k v)) = .rejected (.noSuchRegister k) := by
  simp only [decode, decodeAccess, decodeWriteReg, Reg.ofNumber_eq_none h]

theorem decode_writeFb_absent {m a : Nat} (b : Byte) (h : m ≤ a) :
    decode m (.access (.writeFb a b)) = .rejected (.noSuchByte a) := if_neg (Nat.not_lt.2 h)

theorem decode_readFb_absent {m a : Nat} (h : m ≤ a) :
    decode m (.access (.readFb a)) = .rejected (.noSuchByte a) := if_neg (Nat.not_lt.2 h)

theorem decode_writeFrameLen_tooLong {m n : Nat} (h : 2 ^ Config.lenWOf m ≤ n) :
    decode m (.access (.writeReg 18 n)) = .rejected (.lengthNotRepresentable n) := if_neg (Nat.not_lt.2 h)

namespace Machine

/-- PHASE names an operation only while BUSY (R32, R40). -/
theorem busy_of_decode_phase {m : Nat} {s : State} {i : Instr} (h : decode m (.phase s.phase.code) = .instr i) :
    s.busy = true := by
  unfold State.busy
  cases hp : s.phase
  case idle | done => rw [hp] at h; cases h
  all_goals rfl

/-! What `step` makes of what `fetch` chose. -/

theorem step_of_run {s t : State} {i : Instr} (h : fetch s = .run i t) : step s = exec i t := by
  rw [step, h]

theorem step_of_pass {s t : State} (h : fetch s = .pass t) : step s = .next t := by
  rw [step, h]

theorem step_of_stop {s : State} {r : Refusal} (h : fetch s = .stop r) : step s = .refused r := by
  rw [step, h]

/-! What `fetch` chooses, by the host's next line. -/

theorem fetch_nil {s : State} (h : s.script = []) : fetch s = fetchEngine s := by
  rw [fetch, h]

theorem fetch_issue {s : State} {a : Access} {rest : List HostAction} (h : s.script = .issue a :: rest) :
    fetch s = fetchAccess a { s with script := rest } := by
  rw [fetch, h]

theorem fetch_yield_of_busy {s : State} {rest : List HostAction} (h : s.script = .yield :: rest)
    (hb : s.busy = true) : fetch s = fetchEngine { s with script := rest } := by
  rw [fetch, h]; exact if_pos hb

theorem fetch_yield_of_not_busy {s : State} {rest : List HostAction} (h : s.script = .yield :: rest)
    (hb : s.busy = false) : fetch s = .pass { s with script := rest } := by
  rw [fetch, h]; exact if_neg (by simp [hb])

theorem fetch_wait {s : State} {rest : List HostAction} (h : s.script = .wait :: rest) :
    fetch s = .run (.hread .status)
      { s with script := if s.phase = .done then rest else .yield :: .wait :: rest } := by
  rw [fetch, h]; simp only [isDone_iff]

theorem fetchEngine_instr {s : State} {i : Instr} (h : decode s.maxFrame (.phase s.phase.code) = .instr i) :
    fetchEngine s = .run i s := by
  rw [fetchEngine, h]

theorem fetchAccess_instr {a : Access} {s : State} {i : Instr} (h : decode s.maxFrame (.access a) = .instr i) :
    fetchAccess a s = .run i s := by
  rw [fetchAccess, h]

theorem fetchAccess_noCommand {a : Access} {s : State}
    (h : decode s.maxFrame (.access a) = .rejected .noCommand) : fetchAccess a s = .pass s := by
  rw [fetchAccess, h]

theorem fetchAccess_noSuchRegister {a : Access} {s : State} {k : Nat}
    (h : decode s.maxFrame (.access a) = .rejected (.noSuchRegister k)) :
    fetchAccess a s = .stop (.noSuchRegister k) := by
  rw [fetchAccess, h]

theorem fetchAccess_noSuchByte {a : Access} {s : State} {k : Nat}
    (h : decode s.maxFrame (.access a) = .rejected (.noSuchByte k)) :
    fetchAccess a s = .stop (.noSuchByte k) := by
  rw [fetchAccess, h]

theorem fetchAccess_lengthNotRepresentable {a : Access} {s : State} {n : Nat}
    (h : decode s.maxFrame (.access a) = .rejected (.lengthNotRepresentable n)) :
    fetchAccess a s = .stop (.lengthNotRepresentable n) := by
  rw [fetchAccess, h]

end Machine
end Sys2Proof
end

section
/-! Proofs. Which fault a chain of guarded reads raises (spec/00_scope.md R13): the composition rules follow the `do` block of an
operation, read by read, so that the reads it makes are those of the table R67 (`readsOf`). -/

namespace Sys2Proof.Machine

/-- `f` is the OutOfRangeRead of the first of the reads `rs` that reaches past LEN (R13, R67). -/
def FirstPast (s : State) (rs : List (Nat × Nat)) (f : Fault) : Prop :=
  ∃ a n, f = .outOfRangeRead a n ∧ rs.find? (fun r => decide (s.len < r.1 + r.2)) = some (a, n)

/-- The computation `r` fails exactly as its frame reads `rs` do. -/
def FailsAsReads {α : Type} (s : State) (rs : List (Nat × Nat)) (r : Except Fault α) : Prop :=
  ∀ f, r = .error f ↔ FirstPast s rs f

theorem not_firstPast_nil (s : State) (f : Fault) : ¬ FirstPast s [] f := by
  rintro ⟨a, n, -, h⟩
  cases h

/-- Where the first read reaches past LEN, it is the one. -/
theorem firstPast_cons_of_lt {s : State} {a n : Nat} (h : s.len < a + n) (rs : List (Nat × Nat)) (f : Fault) :
    FirstPast s ((a, n) :: rs) f ↔ f = .outOfRangeRead a n := by
  simp [FirstPast, h]

/-- Where the first read lies inside the frame, the others decide. -/
theorem firstPast_cons_of_le {s : State} {a n : Nat} (h : a + n ≤ s.len) (rs : List (Nat × Nat)) (f : Fault) :
    FirstPast s ((a, n) :: rs) f ↔ FirstPast s rs f := by
  simp [FirstPast, Nat.not_lt.2 h]

/-- What has no read left does not fail. -/
theorem failsAsReads_ok {α : Type} (s : State) (v : α) : FailsAsReads s [] (.ok v) :=
  fun f => iff_of_false nofun (not_firstPast_nil s f)

/-- A guarded read before a computation is a read before its reads. -/
theorem FailsAsReads.guardRead_bind {α β : Type} {s : State} {a n : Nat} {rs : List (Nat × Nat)}
    {k : α → Except Fault β} {v : α} (hk : FailsAsReads s rs (k v)) :
    FailsAsReads s ((a, n) :: rs) (guardRead a n s v >>= k) := by
  intro f
  rcases Nat.lt_or_ge s.len (a + n) with h | h
  · rw [guardRead_error h, firstPast_cons_of_lt h]
    exact ⟨fun e => by cases e; rfl, fun e => by rw [e]; rfl⟩
  · rw [guardRead_ok h, firstPast_cons_of_le h]
    exact hk f

/-- An operation faults in its own phase alone, and there as its reads do (R40). -/
theorem FailsAsReads.whenPhase_fault_iff {p : Phase} {s : State} {rs : List (Nat × Nat)} {r : Except Fault State}
    (h : FailsAsReads s rs r) (f : Fault) :
    whenPhase p s r = .fault f ↔ some p = some s.phase ∧ FirstPast s rs f := by
  rw [whenPhase_fault, h f, Option.some.injEq, eq_comm]

/-- A selector faults in its own phase alone, and there as its reads do (R110). -/
theorem FailsAsReads.whenSelected_fault_iff {p : Phase} {s t : State} {rs : List (Nat × Nat)} {r : Except Fault Bool}
    (h : FailsAsReads s rs r) (f : Fault) :
    whenSelected p s r t = .fault f ↔ some p = some s.phase ∧ FirstPast s rs f := by
  rw [whenSelected_fault, h f, Option.some.injEq, eq_comm]

/-- A host command, which runs in no phase of its own, never faults. -/
theorem exec_ne_fault_of_phaseOf_none {i : Instr} (h : phaseOf i = none) (s : State) (f : Fault) :
    exec i s ≠ .fault f := by
  cases i with
  | hreset | hread r => exact nofun
  | hload a b => rw [exec, execHload]; split_ifs <;> exact nofun
  | hsetlen n => rw [exec, execHsetlen]; split_ifs <;> exact nofun
  | hstart => rw [exec, execHstart]; split_ifs <;> exact nofun
  | hreadfb a => rw [exec, execHreadfb]; split_ifs <;> exact nofun
  | _ => cases h

/-- When an instruction faults, and which fault it is: its phase is on and a read of its row of R67 reaches past LEN. -/
theorem exec_fault_iff (i : Instr) (s : State) (f : Fault) :
    exec i s = .fault f ↔ phaseOf i = some s.phase ∧ FirstPast s (readsOf i s) f := by
  cases i with
  | chketh | selip | seltcp => exact (failsAsReads_ok s _).whenPhase_fault_iff f
  | ethertypeIpv4 | protocolTcp => exact (failsAsReads_ok s _).whenSelected_fault_iff f
  | exteth =>
    refine FailsAsReads.whenPhase_fault_iff ?_ f
    exact .guardRead_bind (.guardRead_bind (.guardRead_bind (failsAsReads_ok s _)))
  | decihl | decdoff =>
    refine FailsAsReads.whenPhase_fault_iff ?_ f
    exact .guardRead_bind (failsAsReads_ok s _)
  | ihlLegal _ | dataOffsetLegal _ =>
    refine FailsAsReads.whenSelected_fault_iff ?_ f
    exact .guardRead_bind (failsAsReads_ok s _)
  | extip | exttcp =>
    refine FailsAsReads.whenPhase_fault_iff ?_ f
    exact .guardRead_bind (.guardRead_bind (.guardRead_bind (.guardRead_bind (failsAsReads_ok s _))))
  | hreset | hload a b | hsetlen n | hstart | hread r | hreadfb a =>
    exact iff_of_false (exec_ne_fault_of_phaseOf_none rfl s f) (fun h => nomatch h.1)

end Sys2Proof.Machine
end

section
/-! Proofs. The obligations of spec/00_scope.md. -/

namespace Sys2Proof.Machine

/-- An operation or selector other than EXTTCP that ends the decode raised a stop (R15, R215). -/
theorem Effect.eq_raiseStop {i : Instr} {s t : State} (h : Effect i s t) (hi : i ≠ .exttcp) (hp : phaseOf i ≠ none)
    (hd : t.phase = .done) : ∃ r, r ≠ .none ∧ t = raiseStop r s := by
  cases h with
  | truncated | unsupportedEtherType | ipTooShort | ipHdrBad | unsupportedIpProtocol | tcpTooShort | tcpHdrBad =>
    exact ⟨_, by simp, rfl⟩
  | ethFits | extractEth | ipFits | ipHdrOk | extractIp | tcpFits | tcpHdrOk => cases hd
  | extractTcp => exact absurd rfl hi
  | reset | load | setLen | start | readReg | readFb => exact absurd rfl hp

/-- Settles O9: the rule of each instruction's reads, `exec_fault_iff`. -/
theorem faultsAreExactlyReadsPastTheFrame : Obligations.FaultsAreExactlyReadsPastTheFrame :=
  exec_fault_iff

/-- Settles O33: what ends the decode there is `raiseStop`, which writes the two registers. -/
theorem stopsRecordOnlyTheReason : Obligations.StopsRecordOnlyTheReason := by
  intro i s t hi hp h hd
  obtain ⟨r, hr, rfl⟩ := (effect_of_exec h).eq_raiseStop hi hp hd
  exact ⟨hr, rfl⟩

/-- Settles O6, clause by clause from the rules of `fetch`. -/
theorem stepRunsTheDecodedInstruction : Obligations.StepRunsTheDecodedInstruction := by
  intro s
  refine ⟨?nil, ?yield, ?yieldPass, ?issue, ?noCommand, ?readReg, ?writeReg, ?writeFb, ?readFb, ?frameLen, ?wait⟩
  case nil => exact fun i hs hd => step_of_run ((fetch_nil hs).trans (fetchEngine_instr hd))
  case yield =>
    exact fun rest i hs hd =>
      step_of_run ((fetch_yield_of_busy hs (busy_of_decode_phase hd)).trans (fetchEngine_instr hd))
  case yieldPass => exact fun rest hs hb => step_of_pass (fetch_yield_of_not_busy hs hb)
  case issue => exact fun a rest i hs hd => step_of_run ((fetch_issue hs).trans (fetchAccess_instr hd))
  case noCommand => exact fun a rest hs hd => step_of_pass ((fetch_issue hs).trans (fetchAccess_noCommand hd))
  case readReg =>
    exact fun k rest hs hk =>
      step_of_stop ((fetch_issue hs).trans (fetchAccess_noSuchRegister (decode_readReg_absent _ hk)))
  case writeReg =>
    exact fun k v rest hs hk =>
      step_of_stop ((fetch_issue hs).trans (fetchAccess_noSuchRegister (decode_writeReg_absent _ v hk)))
  case writeFb =>
    exact fun a b rest hs ha =>
      step_of_stop ((fetch_issue hs).trans (fetchAccess_noSuchByte (decode_writeFb_absent b ha)))
  case readFb =>
    exact fun a rest hs ha => step_of_stop ((fetch_issue hs).trans (fetchAccess_noSuchByte (decode_readFb_absent ha)))
  case frameLen =>
    exact fun n rest hs hn =>
      step_of_stop ((fetch_issue hs).trans (fetchAccess_lengthNotRepresentable (decode_writeFrameLen_tooLong hn)))
  case wait => exact fun rest hs => step_of_run (fetch_wait hs)

/-- Settles O32: no outcome of an instruction writes the three fields. -/
theorem parametersAndScriptStay : Obligations.ParametersAndScriptStay := by
  intro i s t h
  cases effect_of_exec h <;> exact ⟨rfl, rfl, rfl⟩

/-- Settles O60, from the two bounds on `lenWOf`. -/
theorem lenWIsTheLeastWidth : Obligations.LenWIsTheLeastWidth :=
  ⟨fun m => ⟨Config.lt_two_pow_lenWOf m, fun _ => Config.lenWOf_le⟩, rfl, Config.lenWOf_default⟩

end Sys2Proof.Machine
end

section
/-! Proofs. The decoder and the encoder: each family's decoder answers well-formed instructions of its own family, and the
encoder's codes decode to their instructions (spec/30_encoding.md R92 to R115). -/

namespace Sys2Proof

/-! What the decoder makes of the code of one instruction, and of a code outside the admitted ranges. -/

theorem decode_readReg_number (m : Nat) (r : Reg) : decode m (.access (.readReg r.number)) = .instr (.hread r) := by
  simp only [decode, decodeAccess, Reg.ofNumber_number]

theorem decode_vihlByte (m : Nat) (b : Byte) : decode m (.vihlByte b) = decodeIhl (ihlOf b) := rfl

theorem decode_dataOffsetByte (m : Nat) (b : Byte) : decode m (.dataOffsetByte b) = decodeDataOffset (dataOffsetOf b) := rfl

/-- PHASE code 0 and the codes from 9 on name no operation (R40, U9). -/
theorem decode_phase_absent (m : Nat) {k : BitVec 4} (h : k = 0 ∨ 9 ≤ k.toNat) :
    decode m (.phase k) = .rejected (.notAnOperation k) := by
  revert h
  change _ → decodePhase k = _
  revert k
  decide

/-- Decoding the code of a well-formed instruction gives it back. -/
theorem decode_encode {m : Nat} {i : Instr} (h : i.wf m = true) : decode m (encode i) = .instr i := by
  cases i with
  | chketh | exteth | selip | decihl | extip | seltcp | decdoff | exttcp => rfl
  | hreset | hstart => rfl
  | hload a b => exact if_pos (of_decide_eq_true h)
  | hsetlen n => exact if_pos (of_decide_eq_true h)
  | hreadfb a => exact if_pos (of_decide_eq_true h)
  | hread r => exact decode_readReg_number m r
  | ethertypeIpv4 | protocolTcp => rfl
  | ihlLegal ihl =>
    rw [encode, decode_vihlByte, ihlOf_append]
    exact if_pos (of_decide_eq_true h)
  | dataOffsetLegal doff =>
    rw [encode, decode_dataOffsetByte, dataOffsetOf_append]
    exact if_pos (of_decide_eq_true h)

/-! Whatever a family's decoder answers is well-formed and of the family. -/

theorem decodePhase_sound (m : Nat) {k : BitVec 4} {i : Instr} (h : decodePhase k = .instr i) :
    i.wf m = true ∧ i.family = .parseOp := by
  unfold decodePhase at h
  split at h <;> cases h
  all_goals exact ⟨rfl, rfl⟩

theorem decodeWriteReg_sound {m r v : Nat} {i : Instr} (h : decodeWriteReg m r v = .instr i) :
    i.wf m = true ∧ i.family = .hostCommand := by
  unfold decodeWriteReg at h
  split at h
  · cases h
  · split at h <;> cases h
    exact ⟨rfl, rfl⟩
  · split at h <;> cases h
    exact ⟨decide_eq_true ‹_›, rfl⟩
  · cases h

theorem decodeAccess_sound {m : Nat} {a : Access} {i : Instr} (h : decodeAccess m a = .instr i) :
    i.wf m = true ∧ i.family = .hostCommand := by
  cases a with
  | resetEvent => cases h; exact ⟨rfl, rfl⟩
  | writeReg r v => exact decodeWriteReg_sound h
  | readReg r =>
    simp only [decodeAccess] at h
    split at h <;> cases h
    exact ⟨rfl, rfl⟩
  | writeFb a b | readFb a =>
    simp only [decodeAccess] at h
    split at h <;> cases h
    exact ⟨decide_eq_true ‹_›, rfl⟩

/-- Whatever a code decodes to is well-formed and of the code's family. -/
theorem decode_sound {m : Nat} {c : Code} {i : Instr} (h : decode m c = .instr i) :
    i.wf m = true ∧ i.family = c.family := by
  cases c with
  | phase k => exact decodePhase_sound m h
  | access a => exact decodeAccess_sound h
  | etherTypeBytes b12 b13 =>
    simp only [decode, decodeEtherType] at h
    split at h <;> cases h
    exact ⟨rfl, rfl⟩
  | protocolByte b =>
    simp only [decode, decodeProtocol] at h
    split at h <;> cases h
    exact ⟨rfl, rfl⟩
  | vihlByte b =>
    simp only [decode, decodeIhl] at h
    split at h <;> cases h
    exact ⟨decide_eq_true ‹_›, rfl⟩
  | dataOffsetByte b =>
    simp only [decode, decodeDataOffset] at h
    split at h <;> cases h
    exact ⟨decide_eq_true ‹_›, rfl⟩

/-- An `ihl` below 5 selects nothing (R97). -/
theorem decode_vihlByte_illegal (m : Nat) {b : Byte} (h : b.toNat % 16 < 5) :
    decode m (.vihlByte b) = .rejected (.illegalIhl (BitVec.ofNat 4 b.toNat)) := by
  have hn : BitVec.ofNat 4 b.toNat = ihlOf b := by
    apply BitVec.eq_of_toNat_eq
    rw [ihlOf_toNat, BitVec.toNat_ofNat]
  rw [hn, decode_vihlByte, decodeIhl_eq, if_neg]
  rw [ihlOf_toNat]; omega

/-- A `data_offset` below 5 selects nothing (R102). -/
theorem decode_dataOffsetByte_illegal (m : Nat) {b : Byte} (h : b.toNat / 16 < 5) :
    decode m (.dataOffsetByte b) = .rejected (.illegalDataOffset (BitVec.ofNat 4 (b.toNat / 16))) := by
  have hn : BitVec.ofNat 4 (b.toNat / 16) = dataOffsetOf b := by
    rw [← dataOffsetOf_toNat, BitVec.ofNat_toNat, BitVec.setWidth_eq]
  rw [hn, decode_dataOffsetByte, decodeDataOffset_eq, if_neg]
  rw [dataOffsetOf_toNat]; omega

end Sys2Proof
end

section
/-! Proofs. What an instruction leaves unchanged and what it writes, register by register, by cases on its outcome
(spec/10_state.md R21, R33, R34, R45; spec/20_memory.md R61). -/

namespace Sys2Proof.Machine

/-! ## The frame buffer and FRAME_LEN -/

/-- Only HLOAD and HRESET change what FB reads as (R61). -/
theorem Effect.byte_eq {i : Instr} {s t : State} (h : Effect i s t) (hl : ∀ a b, i ≠ .hload a b) (hr : i ≠ .hreset) :
    t.byte = s.byte := by
  cases h with
  | load => exact absurd rfl (hl _ _)
  | reset => exact absurd rfl hr
  | _ => rfl

/-- Only HSETLEN and HRESET change FRAME_LEN (R35). -/
theorem Effect.frameLen_eq {i : Instr} {s t : State} (h : Effect i s t) (hl : ∀ n, i ≠ .hsetlen n) (hr : i ≠ .hreset) :
    t.frameLen = s.frameLen := by
  cases h with
  | setLen => exact absurd rfl (hl _)
  | reset => exact absurd rfl hr
  | _ => rfl

/-- Every outcome keeps the buffer's canonical form (R60). -/
theorem Effect.fb_wf {i : Instr} {s t : State} (h : Effect i s t) (hw : Memory.wf s.maxFrame s.fb = true) :
    Memory.wf t.maxFrame t.fb = true := by
  cases h with
  | load hb ha => exact Memory.wf_write _ ha hw
  | reset => exact Memory.wf_nil _
  | _ => exact hw

/-! ## The result registers -/

/-- A result register reads from the record of result registers alone. -/
theorem readReg_eq_of_regs_eq {r : Reg} {w : Instr} {s t : State} (hr : resultWriter r = some w) (h : t.regs = s.regs) :
    readReg r t = readReg r s := by
  cases r with
  | reserved15 | ctrl | status | frameLen | depth | stopReason | flags => cases hr
  | _ => simp only [readReg, h]

/-- P2 writes no register of another layer. -/
theorem readReg_putEth {r : Reg} {w : Instr} (hr : resultWriter r = some w) (hw : .exteth ≠ w) (x y : Mac)
    (ty : BitVec 16) (s : State) : readReg r (putEth x y ty s) = readReg r s := by
  cases r with
  | ethDst | ethSrc | ethType => cases hr; exact absurd rfl hw
  | reserved15 | ctrl | status | frameLen | depth | stopReason | flags => cases hr
  | _ => rfl

/-- P5 writes no register of another layer. -/
theorem readReg_putIp {r : Reg} {w : Instr} (hr : resultWriter r = some w) (hw : .extip ≠ w) (v p : Byte)
    (x y : BitVec 32) (s : State) : readReg r (putIp v p x y s) = readReg r s := by
  cases r with
  | ipVihl | ipHlen | ipProto | ipSrc | ipDst => cases hr; exact absurd rfl hw
  | reserved15 | ctrl | status | frameLen | depth | stopReason | flags => cases hr
  | _ => rfl

/-- P8 writes no register of another layer. -/
theorem readReg_putTcp {r : Reg} {w : Instr} (hr : resultWriter r = some w) (hw : .exttcp ≠ w) (p q : BitVec 16)
    (x y : BitVec 32) (s : State) : readReg r (putTcp p q x y s) = readReg r s := by
  cases r with
  | tcpSport | tcpDport | tcpSeq | tcpAck | tcpDoff | payOff | payLen => cases hr; exact absurd rfl hw
  | reserved15 | ctrl | status | frameLen | depth | stopReason | flags => cases hr
  | _ => rfl

/-- A result register changes by its one writer, HSTART and HRESET alone (R21). -/
theorem Effect.readReg_eq {i : Instr} {s t : State} {r : Reg} {w : Instr} (h : Effect i s t)
    (hr : resultWriter r = some w) (hw : i ≠ w) (hs : i ≠ .hstart) (hz : i ≠ .hreset) :
    Machine.readReg r t = Machine.readReg r s := by
  cases h with
  | extractEth => exact readReg_putEth hr hw ..
  | extractIp => exact readReg_putIp hr hw ..
  | extractTcp => exact readReg_putTcp hr hw ..
  | start => exact absurd rfl hs
  | reset => exact absurd rfl hz
  | _ => exact readReg_eq_of_regs_eq hr rfl

/-! ## DEPTH, STOP_REASON and the working registers -/

/-- Who writes DEPTH, beside HSTART and HRESET (R33). -/
theorem Effect.depth_cases {i : Instr} {s t : State} (h : Effect i s t) (hs : i ≠ .hstart) (hz : i ≠ .hreset) :
    t.depth = s.depth ∨ (i = .exteth ∧ t.depth = .eth) ∨ (i = .extip ∧ t.depth = .ethIp) ∨
      (i = .exttcp ∧ t.depth = .ethIpTcp) := by
  cases h with
  | extractEth => exact .inr (.inl ⟨rfl, rfl⟩)
  | extractIp => exact .inr (.inr (.inl ⟨rfl, rfl⟩))
  | extractTcp => exact .inr (.inr (.inr ⟨rfl, rfl⟩))
  | start => exact absurd rfl hs
  | reset => exact absurd rfl hz
  | _ => exact .inl rfl

/-- Who writes STOP_REASON, beside HSTART and HRESET, and with what (R34, R270). -/
theorem Effect.stopReason_cases {i : Instr} {s t : State} (h : Effect i s t) (hs : i ≠ .hstart) (hz : i ≠ .hreset) :
    t.stopReason = s.stopReason ∨ (i = .exttcp ∧ t.stopReason = .none) ∨
      (i = .chketh ∧ t.stopReason = .truncatedFrame) ∨
      (i = .selip ∧ t.stopReason = .unsupportedEtherType) ∨
      ((i = .selip ∨ i = .ethertypeIpv4 ∨ i = .decihl ∨ ∃ n, i = .ihlLegal n) ∧
        t.stopReason = .invalidOrTruncatedIpHeader) ∨
      (i = .seltcp ∧ t.stopReason = .unsupportedIpProtocol) ∨
      ((i = .seltcp ∨ i = .protocolTcp ∨ i = .decdoff ∨ ∃ n, i = .dataOffsetLegal n) ∧
        t.stopReason = .invalidOrTruncatedTcpHeader) := by
  cases h with
  | extractTcp => exact .inr (.inl ⟨rfl, rfl⟩)
  | truncated => exact .inr (.inr (.inl ⟨rfl, rfl⟩))
  | unsupportedEtherType => exact .inr (.inr (.inr (.inl ⟨rfl, rfl⟩)))
  | ipTooShort hi => exact .inr (.inr (.inr (.inr (.inl ⟨hi.imp_right .inl, rfl⟩))))
  | ipHdrBad hi => exact .inr (.inr (.inr (.inr (.inl ⟨.inr (.inr hi), rfl⟩))))
  | unsupportedIpProtocol => exact .inr (.inr (.inr (.inr (.inr (.inl ⟨rfl, rfl⟩)))))
  | tcpTooShort hi => exact .inr (.inr (.inr (.inr (.inr (.inr ⟨hi.imp_right .inl, rfl⟩)))))
  | tcpHdrBad hi => exact .inr (.inr (.inr (.inr (.inr (.inr ⟨.inr (.inr hi), rfl⟩)))))
  | start => exact absurd rfl hs
  | reset => exact absurd rfl hz
  | _ => exact .inl rfl

/-- W_IPHL changes on the way to P5 alone, to the checked IPv4 header length (R45, R150). -/
theorem Effect.wIphl_of_ne {i : Instr} {s t : State} (h : Effect i s t) (hs : i ≠ .hstart) (hz : i ≠ .hreset)
    (hne : t.wIphl ≠ s.wIphl) :
    (i = .decihl ∨ ∃ n, i = .ihlLegal n) ∧ t.phase = .p5 ∧ t.wIphl.toNat = 4 * ((s.byte 14).toNat % 16) ∧
      20 ≤ t.wIphl.toNat ∧ 14 + t.wIphl.toNat ≤ s.len := by
  cases h with
  | ipHdrOk hi hp h20 hl =>
    rw [ipHdrLen_eq] at h20 hl
    exact ⟨hi, rfl, by rw [hdrLenOf_toNat, ihlOf_toNat], h20, hl⟩
  | start => exact absurd rfl hs
  | reset => exact absurd rfl hz
  | _ => exact absurd rfl hne

/-- W_TCPHL changes on the way to P8 alone, to the checked TCP header length (R45, R170). -/
theorem Effect.wTcphl_of_ne {i : Instr} {s t : State} (h : Effect i s t) (hs : i ≠ .hstart) (hz : i ≠ .hreset)
    (hne : t.wTcphl ≠ s.wTcphl) :
    (i = .decdoff ∨ ∃ n, i = .dataOffsetLegal n) ∧ t.phase = .p8 ∧
      t.wTcphl.toNat = 4 * ((s.byte (14 + s.wIphl.toNat + 12)).toNat / 16) ∧ 20 ≤ t.wTcphl.toNat ∧
      14 + s.wIphl.toNat + t.wTcphl.toNat ≤ s.len := by
  cases h with
  | tcpHdrOk hi hp h20 hl =>
    rw [← hdrLenOf_toNat] at h20 hl
    exact ⟨hi, rfl, by rw [hdrLenOf_toNat, dataOffsetOf_toNat]; rfl, h20, hl⟩
  | start => exact absurd rfl hs
  | reset => exact absurd rfl hz
  | _ => exact absurd rfl hne

/-! ## PHASE -/

/-- A parse operation or selector moves PHASE along an edge of the parse graph (R215). -/
theorem Effect.mem_parseGraph {i : Instr} {s t : State} (h : Effect i s t) (hi : phaseOf i ≠ none) :
    (s.phase, t.phase) ∈ parseGraph := by
  cases h with
  | truncated hp | ethFits hp | extractEth hp | unsupportedEtherType hp | extractIp hp | unsupportedIpProtocol hp
  | extractTcp hp => simp [parseGraph, hp]
  | ipTooShort _ hp | ipFits _ hp | ipHdrBad _ hp | ipHdrOk _ hp | tcpTooShort _ hp | tcpFits _ hp | tcpHdrBad _ hp
  | tcpHdrOk _ hp => simp [parseGraph, hp]
  | reset | load | setLen | start | readReg | readFb => exact absurd rfl hi

/-- An edge of the parse graph leads to the next phase or to DONE (R41). -/
theorem code_of_mem_parseGraph :
    ∀ e ∈ parseGraph, e.2.code.toNat = e.1.code.toNat + 1 ∨ e.2 = .done := by decide

end Sys2Proof.Machine
end

section
/-! Proofs. The views of the state and what a host read of a register returns (spec/10_state.md R22, R30, R32, R36;
spec/43_host_commands.md R194), and the refusal of an operation out of its phase (R40). -/

namespace Sys2Proof.Machine

/-! ## STATUS and FLAGS -/

/-- STATUS as a number: BUSY has weight 1, DONE weight 2 (R32). -/
theorem status_toNat (s : State) :
    s.status.toNat = (if s.busy then 1 else 0) + (if s.phase = .done then 2 else 0) := by
  unfold State.status State.busy State.isDone
  cases s.phase <;> rfl

/-- The bits of FLAGS, the lowest first (R36). -/
theorem flags_getLsbD (s : State) :
    s.flags.getLsbD 0 = s.ethV ∧ s.flags.getLsbD 1 = s.ipV ∧ s.flags.getLsbD 2 = s.tcpV ∧
      s.flags.getLsbD 3 = s.payNe := by
  unfold State.flags
  generalize s.payNe = a, s.tcpV = b, s.ipV = c, s.ethV = d
  revert a b c d
  decide

/-- The legal combinations of ETH_V, IP_V and TCP_V (R36). -/
theorem flags_toNat_mod_eight (s : State) : s.flags.toNat % 8 ∈ [0, 1, 3, 7] := by
  unfold State.flags State.payNe State.tcpV State.ipV State.ethV
  generalize decide (0 < s.regs.payLen) = b
  cases s.depth <;> revert b <;> decide

/-! ## Host reads -/

/-- HREAD of a register that is readable now returns it and has no other effect (R194). -/
theorem exec_hread_readable {s : State} {r : Reg} (h : (s.busy && freeWhileBusy r) = false) :
    exec (.hread r) s = .next (reply (readReg r s) s) := by
  rw [exec, execHread, h]; rfl

/-- HREAD of a register that is not readable while BUSY returns the next free value (U4). -/
theorem exec_hread_free {s : State} {r : Reg} (hb : s.busy = true) (hr : freeWhileBusy r = true) :
    exec (.hread r) s =
      .next { reply (freeReading s.maxFrame r s.draws) s with draws := s.draws + 1 } := by
  rw [exec, execHread, hb, hr]; rfl

/-- Every register is readable while the engine is not BUSY. -/
theorem exec_hread_of_not_busy {s : State} (hb : s.busy = false) (r : Reg) :
    exec (.hread r) s = .next (reply (readReg r s) s) :=
  exec_hread_readable (by rw [hb]; rfl)

/-- STATUS, FRAME_LEN, CTRL and register 15 are readable in every phase. -/
theorem exec_hread_of_not_free {r : Reg} (hr : freeWhileBusy r = false) (s : State) :
    exec (.hread r) s = .next (reply (readReg r s) s) :=
  exec_hread_readable (by rw [hr, Bool.and_false])

/-! ## Operations out of their phase -/

/-- A parse operation or selector is refused in every phase but its own (R40, R110). -/
theorem exec_of_phase_ne {i : Instr} {s : State} {p : Phase} (hi : phaseOf i = some p) (h : s.phase ≠ p) :
    exec i s = .refused (.phaseMismatch p) := by
  cases i with
  | hreset | hload _ _ | hsetlen _ | hstart | hread _ | hreadfb _ => cases hi
  | _ => cases hi; exact if_neg h

end Sys2Proof.Machine
end

section
/-! Proofs. The records a decode can end with, one case per depth (spec/44_decode_function.md R210, R229), and what follows
from them: the clauses of R25, and that the registers of absent layers are 0 (R26). -/

namespace Sys2Proof.Machine

/-! ## Depth and reason of a record -/

@[simp] theorem start_depth : DecodeRecord.start.depth = .none := rfl
@[simp] theorem recordEth_depth (o : Config.MacOrder) (fb : Nat → Byte) : (recordEth o fb).depth = .eth := rfl
@[simp] theorem recordIp_depth (o : Config.MacOrder) (fb : Nat → Byte) : (recordIp o fb).depth = .ethIp := rfl
@[simp] theorem recordTcp_depth (o : Config.MacOrder) (fb : Nat → Byte) (len : Nat) :
    (recordTcp o fb len).depth = .ethIpTcp := rfl
@[simp] theorem stoppedBy_depth (r : DecodeRecord) (why : StopReason) : (r.stoppedBy why).depth = r.depth := rfl
@[simp] theorem stoppedBy_stopReason (r : DecodeRecord) (why : StopReason) : (r.stoppedBy why).stopReason = why := rfl

/-- Code 0 is the reason NONE alone (R34). -/
theorem StopReason.code_eq_zero_iff (why : StopReason) : why.code = 0 ↔ why = .none := by cases why <;> decide

/-! ## How a decode ends -/

/-- P3 to P5 pass: the IPv4 header of the frame is valid (R132, R150). -/
structure IpValid (fb : Nat → Byte) (len : Nat) : Prop where
  etherType : be16 fb 12 = 0x0800
  minLen : 34 ≤ len
  minHdr : 20 ≤ ipHdrLen fb
  fits : 14 + ipHdrLen fb ≤ len

/-- P6 to P8 pass: the TCP header of the frame is valid (R152, R170). -/
structure TcpValid (fb : Nat → Byte) (len : Nat) : Prop where
  protocol : fb 23 = 6
  minHdr : 20 ≤ tcpHdrLen fb
  fits : 14 + ipHdrLen fb + tcpHdrLen fb ≤ len

/-- The records of decodes that end, by the depth reached. -/
inductive DecodeEnd (o : Config.MacOrder) (fb : Nat → Byte) (len : Nat) : DecodeRecord → Prop where
  | tooShort {why : StopReason} (hw : why ≠ .none) : DecodeEnd o fb len (DecodeRecord.start.stoppedBy why)
  | atEth {why : StopReason} (hw : why ≠ .none) (hl : 14 ≤ len) : DecodeEnd o fb len ((recordEth o fb).stoppedBy why)
  | atIp {why : StopReason} (hw : why ≠ .none) (hi : IpValid fb len) :
      DecodeEnd o fb len ((recordIp o fb).stoppedBy why)
  | atTcp (hi : IpValid fb len) (ht : TcpValid fb len) : DecodeEnd o fb len (recordTcp o fb len)

/-- Every decode ends in one of these ways. -/
theorem decodeEnd_decodeFrame (o : Config.MacOrder) (fb : Nat → Byte) (len : Nat) :
    DecodeEnd o fb len (decodeFrame o fb len) := by
  rw [decodeFrame_eq]
  split_ifs with hl ht hm hi hp hf hd
  · exact .tooShort nofun
  · exact .atEth nofun (by omega)
  · exact .atEth nofun (by omega)
  · exact .atEth nofun (by omega)
  all_goals
    have hip : IpValid fb len := ⟨not_not.1 ht, by omega, by omega, by omega⟩
  · exact .atIp nofun hip
  · exact .atIp nofun hip
  · exact .atIp nofun hip
  · exact .atTcp hip ⟨not_not.1 hp, by omega, by omega⟩

/-! ## The clauses of R25 -/

/-- IP_HLEN holds the IPv4 header length: its 6 bits lose nothing (R220). -/
theorem recordIp_ipHlen_toNat (o : Config.MacOrder) (fb : Nat → Byte) :
    (recordIp o fb).regs.ipHlen.toNat = ipHdrLen fb := by
  have := ipHdrLen_le fb
  change (BitVec.ofNat 6 (ipHdrLen fb)).toNat = _
  rw [BitVec.toNat_ofNat]; omega

/-- TCP_DOFF counts the 4-byte words of the TCP header (R105, R171). -/
theorem recordTcp_tcpDoff_toNat (o : Config.MacOrder) (fb : Nat → Byte) (len : Nat) :
    4 * (recordTcp o fb len).regs.tcpDoff.toNat = tcpHdrLen fb := by
  have hle := tcpHdrLen_le fb
  have hdiv : 4 * (tcpHdrLen fb / 4) = tcpHdrLen fb := Nat.mul_div_cancel' ⟨_, rfl⟩
  change 4 * (BitVec.ofNat 4 (tcpHdrLen fb / 4)).toNat = _
  rw [BitVec.toNat_ofNat]; omega

theorem ipHdrLen_mem {fb : Nat → Byte} (h : 20 ≤ ipHdrLen fb) :
    ipHdrLen fb ∈ [20, 24, 28, 32, 36, 40, 44, 48, 52, 56, 60] := by
  have hle := ipHdrLen_le fb
  unfold ipHdrLen at h hle ⊢
  simp only [List.mem_cons, List.not_mem_nil, or_false]
  omega

/-- R25 (b) of the registers P5 writes. -/
theorem IpValid.recordIp_regs {o : Config.MacOrder} {fb : Nat → Byte} {len : Nat} (h : IpValid fb len) :
    (recordIp o fb).regs.ethType = 0x0800 ∧ 34 ≤ len ∧
      (recordIp o fb).regs.ipHlen.toNat = 4 * ((recordIp o fb).regs.ipVihl.toNat % 16) ∧
      (recordIp o fb).regs.ipHlen.toNat ∈ [20, 24, 28, 32, 36, 40, 44, 48, 52, 56, 60] ∧
      14 + (recordIp o fb).regs.ipHlen.toNat ≤ len := by
  rw [recordIp_ipHlen_toNat]
  refine ⟨h.etherType, h.minLen, ?_, ipHdrLen_mem h.minHdr, h.fits⟩
  rw [ipHdrLen_eq, hdrLenOf_toNat, ihlOf_toNat]; rfl

section
variable {o : Config.MacOrder} {fb : Nat → Byte} {len : Nat} {r : DecodeRecord}

/-- R25 (a). -/
theorem DecodeEnd.eth_fits (h : DecodeEnd o fb len r) (hd : 1 ≤ r.depth.code.toNat) : 14 ≤ len := by
  cases h with
  | tooShort => simp [Depth.code] at hd
  | atEth _ hl => exact hl
  | atIp _ hi | atTcp hi => exact Nat.le_trans (by decide) hi.minLen

/-- R25 (b). -/
theorem DecodeEnd.ip_regs (h : DecodeEnd o fb len r) (hd : 2 ≤ r.depth.code.toNat) :
    r.regs.ethType = 0x0800 ∧ 34 ≤ len ∧ r.regs.ipHlen.toNat = 4 * (r.regs.ipVihl.toNat % 16) ∧
      r.regs.ipHlen.toNat ∈ [20, 24, 28, 32, 36, 40, 44, 48, 52, 56, 60] ∧ 14 + r.regs.ipHlen.toNat ≤ len := by
  cases h with
  | tooShort | atEth => simp [Depth.code] at hd
  | atIp _ hi | atTcp hi => exact hi.recordIp_regs (o := o)

/-- R25 (c). -/
theorem DecodeEnd.tcp_regs (h : DecodeEnd o fb len r) (hd : r.depth.code.toNat = 3) :
    r.regs.ipProto = 6 ∧ 5 ≤ r.regs.tcpDoff.toNat ∧
      r.regs.payOff = 14 + r.regs.ipHlen.toNat + 4 * r.regs.tcpDoff.toNat ∧ r.regs.payOff ≤ len ∧
      r.regs.payOff + r.regs.payLen = len ∧ 54 ≤ r.regs.payOff ∧ r.regs.payOff ≤ 134 := by
  cases h with
  | tooShort | atEth | atIp => simp [Depth.code] at hd
  | atTcp hi ht =>
    have hdoff := recordTcp_tcpDoff_toNat o fb len
    have hhlen : (recordTcp o fb len).regs.ipHlen.toNat = ipHdrLen fb := recordIp_ipHlen_toNat o fb
    have hoff : (recordTcp o fb len).regs.payOff = 14 + ipHdrLen fb + tcpHdrLen fb := rfl
    have hlen : (recordTcp o fb len).regs.payLen = len - (14 + ipHdrLen fb + tcpHdrLen fb) := rfl
    have ⟨hp, ht20, hf⟩ := ht
    have hi20 := hi.minHdr
    have hi60 := ipHdrLen_le fb
    have ht60 := tcpHdrLen_le fb
    rw [hhlen, hoff, hlen]
    exact ⟨hp, by omega, by omega, hf, by omega, by omega, by omega⟩

/-- R25 (d). -/
theorem DecodeEnd.depth_eq_three_iff (h : DecodeEnd o fb len r) :
    r.depth.code.toNat = 3 ↔ r.stopReason.code = 0 := by
  cases h with
  | atTcp => exact iff_of_true rfl rfl
  | tooShort hw | atEth hw | atIp hw =>
    exact iff_of_false (by simp [Depth.code]) (mt (StopReason.code_eq_zero_iff _).1 hw)

end

/-! ## Absent layers -/

/-- The registers of the layers that DEPTH does not count are 0: nothing is lost on the way through the sum type (R26, R212). -/
def DecodeRecord.Layered (r : DecodeRecord) : Prop := (frameOf r.depth r.regs).regs = r.regs

theorem layered_start : DecodeRecord.start.Layered := rfl

theorem layered_recordEth (o : Config.MacOrder) (fb : Nat → Byte) : (recordEth o fb).Layered := rfl

theorem layered_recordIp (o : Config.MacOrder) (fb : Nat → Byte) : (recordIp o fb).Layered := rfl

/-- With every layer present no register has to be 0. -/
theorem layered_recordTcp (o : Config.MacOrder) (fb : Nat → Byte) (len : Nat) : (recordTcp o fb len).Layered := rfl

/-- A stop writes no result register (R271). -/
theorem DecodeRecord.Layered.stoppedBy {r : DecodeRecord} (h : r.Layered) (why : StopReason) :
    (r.stoppedBy why).Layered := h

theorem DecodeEnd.layered {o : Config.MacOrder} {fb : Nat → Byte} {len : Nat} {r : DecodeRecord}
    (h : DecodeEnd o fb len r) : r.Layered := by
  cases h with
  | tooShort => exact layered_start.stoppedBy _
  | atEth => exact (layered_recordEth o fb).stoppedBy _
  | atIp => exact (layered_recordIp o fb).stoppedBy _
  | atTcp => exact layered_recordTcp o fb len

theorem layered_decodeFrame (o : Config.MacOrder) (fb : Nat → Byte) (len : Nat) : (decodeFrame o fb len).Layered :=
  (decodeEnd_decodeFrame o fb len).layered

/-- The sum type keeps the depth (R212). -/
theorem frameOf_depth (d : Depth) (g : Results) : (frameOf d g).depth = d := by cases d <;> rfl

/-- The registers of a DecodedFrame read 0 where its layer is absent (R26). -/
theorem readReg_frameOf_eq_zero {r : Reg} {n : Nat} (hr : validAtDepth r = some n) {d : Depth} (hd : d.code.toNat < n)
    (g : Results) (s : State) : readReg r { s with regs := (frameOf d g).regs } = 0 := by
  cases r with
  | ethDst | ethSrc | ethType =>
    cases hr
    cases d with
    | none => rfl
    | eth | ethIp | ethIpTcp => exact absurd hd (by decide)
  | ipVihl | ipHlen | ipProto | ipSrc | ipDst =>
    cases hr
    cases d with
    | none | eth => rfl
    | ethIp | ethIpTcp => exact absurd hd (by decide)
  | tcpSport | tcpDport | tcpSeq | tcpAck | tcpDoff | payOff | payLen =>
    cases hr
    cases d with
    | none | eth | ethIp => rfl
    | ethIpTcp => exact absurd hd (by decide)
  | reserved15 | ctrl | status | frameLen | depth | stopReason | flags => cases hr

/-- A layered record's registers read 0 where their layer is absent (R26). -/
theorem DecodeRecord.Layered.readReg_eq_zero {s : State} (h : s.record.Layered) {r : Reg} {n : Nat}
    (hr : validAtDepth r = some n) (hd : s.depth.code.toNat < n) : readReg r s = 0 := by
  have hs : { s with regs := (frameOf s.depth s.regs).regs } = s := by
    rw [show (frameOf s.depth s.regs).regs = s.regs from h]
  rw [← hs]
  exact readReg_frameOf_eq_zero hr hd s.regs s

end Sys2Proof.Machine
end

section
/-! Proofs. The invariant (spec/44_decode_function.md R215): what it says in each phase, the record of a decode that ends, and
that every outcome of an instruction keeps it. -/

namespace Sys2Proof.Machine

/-! ## What `PhaseInv` says in each phase -/

theorem phaseInv_idle {s : State} (h : s.phase = .idle) :
    PhaseInv s ↔ s.record = DecodeRecord.start ∧ s.wIphl = 0 ∧ s.wTcphl = 0 := by rw [PhaseInv, h]

theorem phaseInv_p1 {s : State} (h : s.phase = .p1) :
    PhaseInv s ↔ s.record = DecodeRecord.start ∧ s.wIphl = 0 ∧ s.wTcphl = 0 := by rw [PhaseInv, h]

theorem phaseInv_p2 {s : State} (h : s.phase = .p2) :
    PhaseInv s ↔ s.record = DecodeRecord.start ∧ EthFits s ∧ s.wIphl = 0 ∧ s.wTcphl = 0 := by rw [PhaseInv, h]

theorem phaseInv_p3 {s : State} (h : s.phase = .p3) :
    PhaseInv s ↔ s.record = recordEth s.macOrder s.byte ∧ EthFits s ∧ s.wIphl = 0 ∧ s.wTcphl = 0 := by
  rw [PhaseInv, h]

theorem phaseInv_p4 {s : State} (h : s.phase = .p4) :
    PhaseInv s ↔ s.record = recordEth s.macOrder s.byte ∧ IpFits s ∧ s.wIphl = 0 ∧ s.wTcphl = 0 := by
  rw [PhaseInv, h]

theorem phaseInv_p5 {s : State} (h : s.phase = .p5) :
    PhaseInv s ↔ s.record = recordEth s.macOrder s.byte ∧ IpFits s ∧ IpHdrOk s ∧ s.wTcphl = 0 := by
  rw [PhaseInv, h]

theorem phaseInv_p6 {s : State} (h : s.phase = .p6) :
    PhaseInv s ↔ s.record = recordIp s.macOrder s.byte ∧ IpFits s ∧ IpHdrOk s ∧ s.wTcphl = 0 := by
  rw [PhaseInv, h]

theorem phaseInv_p7 {s : State} (h : s.phase = .p7) :
    PhaseInv s ↔ s.record = recordIp s.macOrder s.byte ∧ IpFits s ∧ IpHdrOk s ∧ TcpFits s ∧ s.wTcphl = 0 := by
  rw [PhaseInv, h]

theorem phaseInv_p8 {s : State} (h : s.phase = .p8) :
    PhaseInv s ↔ s.record = recordIp s.macOrder s.byte ∧ IpFits s ∧ IpHdrOk s ∧ TcpFits s ∧ TcpHdrOk s := by
  rw [PhaseInv, h]

theorem phaseInv_done {s : State} (h : s.phase = .done) :
    PhaseInv s ↔ ∃ fb len, len ≤ s.maxFrame ∧ s.record = decodeFrame s.macOrder fb len := by rw [PhaseInv, h]

/-- In every phase the registers of absent layers are 0 (R26). -/
theorem PhaseInv.layered {s : State} (h : PhaseInv s) : s.record.Layered := by
  cases hp : s.phase with
  | idle => rw [((phaseInv_idle hp).1 h).1]; exact layered_start
  | p1 => rw [((phaseInv_p1 hp).1 h).1]; exact layered_start
  | p2 => rw [((phaseInv_p2 hp).1 h).1]; exact layered_start
  | p3 => rw [((phaseInv_p3 hp).1 h).1]; exact layered_recordEth _ _
  | p4 => rw [((phaseInv_p4 hp).1 h).1]; exact layered_recordEth _ _
  | p5 => rw [((phaseInv_p5 hp).1 h).1]; exact layered_recordEth _ _
  | p6 => rw [((phaseInv_p6 hp).1 h).1]; exact layered_recordIp _ _
  | p7 => rw [((phaseInv_p7 hp).1 h).1]; exact layered_recordIp _ _
  | p8 => rw [((phaseInv_p8 hp).1 h).1]; exact layered_recordIp _ _
  | done => obtain ⟨fb, len, -, hr⟩ := (phaseInv_done hp).1 h; rw [hr]; exact layered_decodeFrame _ fb len

/-- While the engine is not BUSY the invariant says nothing of the buffer and the length (R191, R192). -/
theorem PhaseInv.of_not_busy {s : State} (h : PhaseInv s) (hb : s.busy = false) (m : Memory) (n : Nat) :
    PhaseInv { s with fb := m, frameLen := n } := by
  rcases (busy_eq_false_iff s).1 hb with hp | hp
  · exact (phaseInv_idle (s := { s with fb := m, frameLen := n }) hp).2 ((phaseInv_idle hp).1 h)
  · exact (phaseInv_done (s := { s with fb := m, frameLen := n }) hp).2 ((phaseInv_done hp).1 h)

/-! ## The record of a decode that ends -/

/-- The nibble P7 reads is the one `tcpHdrLen` counts, once P4 has passed. -/
theorem IpHdrOk.tcpHdrLen_eq {s : State} (h : IpHdrOk s) :
    tcpHdrLen s.byte = 4 * (dataOffsetOf (s.byte (s.l4 + 12))).toNat := by
  rw [h.l4_eq]; rfl

theorem ethType_of_record {s : State} (h : s.record = recordEth s.macOrder s.byte) :
    s.regs.ethType = be16 s.byte 12 := congrArg (·.regs.ethType) h

theorem ipProto_of_record {s : State} (h : s.record = recordIp s.macOrder s.byte) :
    s.regs.ipProto = s.byte 23 := congrArg (·.regs.ipProto) h

/-- A step of the engine that ends the decode leaves the record of the whole decode (R211). -/
theorem Effect.record_of_done {i : Instr} {s t : State} (h : Effect i s t) (hv : PhaseInv s) (hi : phaseOf i ≠ none)
    (hd : t.phase = .done) : t.record = decodeFrame s.macOrder s.byte s.len := by
  cases h with
  | truncated hp hl =>
    obtain ⟨hr, -⟩ := (phaseInv_p1 hp).1 hv
    rw [raiseStop_record, hr, decodeFrame_short hl]
  | unsupportedEtherType hp ht =>
    obtain ⟨hr, hf, -⟩ := (phaseInv_p3 hp).1 hv
    rw [ethType_of_record hr] at ht
    rw [raiseStop_record, hr, decodeFrame_otherType hf ht]
  | ipTooShort _ hp ht hl =>
    obtain ⟨hr, hf, -⟩ := (phaseInv_p3 hp).1 hv
    rw [ethType_of_record hr] at ht
    rw [raiseStop_record, hr, decodeFrame_noIpHeader hf ht hl]
  | ipHdrBad _ hp hl =>
    obtain ⟨hr, ⟨ht, hf⟩, -⟩ := (phaseInv_p4 hp).1 hv
    rw [raiseStop_record, hr, decodeFrame_badIpHeader ht hf hl]
  | unsupportedIpProtocol hp ht =>
    obtain ⟨hr, ⟨hty, hf⟩, ⟨h20, hl, -⟩, -⟩ := (phaseInv_p6 hp).1 hv
    rw [ipProto_of_record hr] at ht
    rw [raiseStop_record, hr, decodeFrame_otherProtocol hty hf h20 hl ht]
  | tcpTooShort _ hp ht hl =>
    obtain ⟨hr, ⟨hty, hf⟩, ⟨h20, hl4, hw⟩, -⟩ := (phaseInv_p6 hp).1 hv
    rw [ipProto_of_record hr] at ht
    rw [hw] at hl
    rw [raiseStop_record, hr, decodeFrame_noTcpHeader hty hf h20 hl4 ht hl]
  | tcpHdrBad _ hp hl =>
    obtain ⟨hr, ⟨hty, hf⟩, hip, ⟨hpr, hm⟩, -⟩ := (phaseInv_p7 hp).1 hv
    have ⟨h20, _⟩ := hip
    rw [← hip.tcpHdrLen_eq, hip.l4_eq] at hl
    rw [raiseStop_record, hr, decodeFrame_badTcpHeader hty hf h20 hpr hm hl]
  | extractTcp hp =>
    obtain ⟨hr, ⟨hty, hf⟩, hip, ⟨hpr, hm⟩, htcp⟩ := (phaseInv_p8 hp).1 hv
    have ⟨h20, _⟩ := hip
    have ⟨ht20, hl, _⟩ := htcp
    rw [putTcp_record hr hip htcp, decodeFrame_full hty hf h20 hpr hm ht20 hl]
  | ethFits | extractEth | ipFits | ipHdrOk | extractIp | tcpFits | tcpHdrOk => cases hd
  | reset | load | setLen | start | readReg | readFb => exact absurd rfl hi

/-! ## Every outcome keeps the invariant -/

theorem Effect.maxFrame_eq {i : Instr} {s t : State} (h : Effect i s t) : t.maxFrame = s.maxFrame := by cases h <;> rfl

theorem Effect.macOrder_eq {i : Instr} {s t : State} (h : Effect i s t) : t.macOrder = s.macOrder := by cases h <;> rfl

/-- A parse operation or selector leaves the buffer and the length as they are (R61). -/
theorem Effect.frame_eq {i : Instr} {s t : State} (h : Effect i s t) (hi : phaseOf i ≠ none) :
    t.byte = s.byte ∧ t.len = s.len := by
  have host {j : Instr} (hj : phaseOf j = none) : i ≠ j := fun e => hi (e ▸ hj)
  exact ⟨h.byte_eq (fun _ _ => host rfl) (host rfl), h.frameLen_eq (fun _ => host rfl) (host rfl)⟩

/-- A parse operation or selector runs while BUSY alone (R196). -/
theorem Effect.busy {i : Instr} {s t : State} (h : Effect i s t) (hi : phaseOf i ≠ none) : s.busy = true :=
  (by decide : ∀ e ∈ parseGraph, e.1.isBusy = true) _ (h.mem_parseGraph hi)

/-- What DONE asks for, after a step of the engine that ends the decode. -/
theorem Effect.phaseInv_of_done {i : Instr} {s t : State} (h : Effect i s t) (hv : Inv s) (hi : phaseOf i ≠ none)
    (hd : t.phase = .done) : PhaseInv t := by
  refine (phaseInv_done hd).2 ⟨s.byte, s.len, ?_, ?_⟩
  · rw [h.maxFrame_eq]; exact hv.lenOk (h.busy hi)
  · rw [h.macOrder_eq]; exact h.record_of_done hv.phaseInv hi hd

/-- What the next phase asks for is what the operation has tested and written, beside what held before (R215). -/
theorem Effect.phaseInv {i : Instr} {s t : State} (h : Effect i s t) (hv : Inv s) : PhaseInv t := by
  have hdone := h.phaseInv_of_done hv
  have hpi := hv.phaseInv
  cases h with
  | truncated | unsupportedEtherType | unsupportedIpProtocol | extractTcp => exact hdone nofun rfl
  | ipTooShort hi => exact hdone (by rcases hi with rfl | rfl <;> nofun) rfl
  | ipHdrBad hi => exact hdone (by rcases hi with rfl | ⟨_, rfl⟩ <;> nofun) rfl
  | tcpTooShort hi => exact hdone (by rcases hi with rfl | rfl <;> nofun) rfl
  | tcpHdrBad hi => exact hdone (by rcases hi with rfl | ⟨_, rfl⟩ <;> nofun) rfl
  | ethFits hp hl =>
    obtain ⟨hr, hw⟩ := (phaseInv_p1 hp).1 hpi
    exact (phaseInv_p2 rfl).2 ⟨hr, hl, hw⟩
  | extractEth hp =>
    obtain ⟨hr, hf, hw⟩ := (phaseInv_p2 hp).1 hpi
    exact (phaseInv_p3 rfl).2 ⟨putEth_record hr, hf, hw⟩
  | ipFits _ hp ht hl =>
    obtain ⟨hr, -, hw⟩ := (phaseInv_p3 hp).1 hpi
    exact (phaseInv_p4 rfl).2 ⟨hr, ⟨ethType_of_record hr ▸ ht, hl⟩, hw⟩
  | ipHdrOk _ hp h20 hl =>
    obtain ⟨hr, hf, -, hw⟩ := (phaseInv_p4 hp).1 hpi
    exact (phaseInv_p5 rfl).2 ⟨hr, hf, ⟨h20, hl, (ipHdrLen_eq s.byte).symm⟩, hw⟩
  | extractIp hp =>
    obtain ⟨hr, hf, hip, hw⟩ := (phaseInv_p5 hp).1 hpi
    exact (phaseInv_p6 rfl).2 ⟨putIp_record hr hip, hf, hip, hw⟩
  | tcpFits _ hp ht hl =>
    obtain ⟨hr, hf, hip, hw⟩ := (phaseInv_p6 hp).1 hpi
    have ⟨_, _, hwip⟩ := hip
    rw [hwip] at hl
    exact (phaseInv_p7 rfl).2 ⟨hr, hf, hip, ⟨ipProto_of_record hr ▸ ht, hl⟩, hw⟩
  | tcpHdrOk _ hp h20 hl =>
    obtain ⟨hr, hf, hip, htcp, -⟩ := (phaseInv_p7 hp).1 hpi
    have hlen := hip.tcpHdrLen_eq
    rw [← hlen] at h20
    rw [← hlen, hip.l4_eq] at hl
    exact (phaseInv_p8 rfl).2 ⟨hr, hf, hip, htcp, h20, hl, (hdrLenOf_toNat _).trans hlen.symm⟩
  | reset => exact (phaseInv_idle rfl).2 ⟨rfl, rfl, rfl⟩
  | load hb => exact hpi.of_not_busy hb _ _
  | setLen hb => exact hpi.of_not_busy hb _ _
  | start => exact (phaseInv_p1 rfl).2 ⟨rfl, rfl, rfl⟩
  | readReg | readFb => exact hpi

/-- A decode that runs keeps the length it was started with (R193, R305). -/
theorem Effect.lenOk {i : Instr} {s t : State} (h : Effect i s t) (hv : s.busy = true → s.len ≤ s.maxFrame)
    (ht : t.busy = true) : t.len ≤ t.maxFrame := by
  have busy {p : Phase} (hp : s.phase = p) (hb : p.isBusy = true) : s.busy = true := by rw [State.busy, hp, hb]
  cases h with
  | truncated hp | ethFits hp | extractEth hp | unsupportedEtherType hp | extractIp hp | unsupportedIpProtocol hp
  | extractTcp hp => exact hv (busy hp rfl)
  | ipTooShort _ hp | ipFits _ hp | ipHdrBad _ hp | ipHdrOk _ hp | tcpTooShort _ hp | tcpFits _ hp | tcpHdrBad _ hp
  | tcpHdrOk _ hp => exact hv (busy hp rfl)
  | reset => cases ht
  | load hb | setLen hb => exact absurd (hb.symm.trans ht) nofun
  | start _ hl => exact hl
  | readReg | readFb => exact hv ht

/-- The registers of `LEN_W` bits stay below 2^`LEN_W`: PAY_OFF and PAY_LEN are at most LEN where P7 has passed (R220). -/
theorem Effect.widths {i : Instr} {s t : State} (h : Effect i s t) (hv : Inv s) :
    t.frameLen < 2 ^ t.lenW ∧ t.regs.payOff < 2 ^ t.lenW ∧ t.regs.payLen < 2 ^ t.lenW := by
  obtain ⟨hl, ho, hn⟩ := hv.widths
  cases h with
  | extractTcp hp =>
    obtain ⟨-, -, hip, -, -, hfit, hw⟩ := (phaseInv_p8 hp).1 hv.phaseInv
    have hoff : s.l4 + s.wTcphl.toNat ≤ s.frameLen := by rw [hip.l4_eq, hw]; exact hfit
    exact ⟨hl, Nat.lt_of_le_of_lt hoff hl, Nat.lt_of_le_of_lt (Nat.sub_le _ _) hl⟩
  | reset => exact ⟨Nat.two_pow_pos _, Nat.two_pow_pos _, Nat.two_pow_pos _⟩
  | start => exact ⟨hl, Nat.two_pow_pos _, Nat.two_pow_pos _⟩
  | setLen _ hlt => exact ⟨hlt, ho, hn⟩
  | _ => exact ⟨hl, ho, hn⟩

theorem Inv.of_effect {i : Instr} {s t : State} (hv : Inv s) (h : Effect i s t) : Inv t :=
  ⟨h.fb_wf hv.fbWf, h.lenOk hv.lenOk, h.widths hv, h.phaseInv hv⟩

/-- The invariant says nothing of the host's script. -/
theorem Inv.with_script {s : State} (hv : Inv s) (l : List HostAction) : Inv { s with script := l } :=
  ⟨hv.fbWf, hv.lenOk, hv.widths, hv.phaseInv⟩

theorem inv_reset : Inv State.reset :=
  ⟨State.reset_fb_wf, nofun, by decide, (phaseInv_idle rfl).2 ⟨rfl, rfl, rfl⟩⟩

/-- Every step keeps the invariant: `fetch` changes the script alone, and the instruction has one of its outcomes. -/
theorem Inv.of_step {s t : State} (hv : Inv s) (h : step s = .next t) : Inv t := by
  rcases step_next h with ⟨i, u, hf, he⟩ | hf
  · obtain ⟨⟨l, rfl⟩, -⟩ := fetch_run hf
    exact (hv.with_script l).of_effect (effect_of_exec he)
  · obtain ⟨l, rfl⟩ := fetch_pass hf
    exact hv.with_script l

/-! ## DEPTH during a decode, and the end of a decode -/

/-- A parse operation or selector leaves DEPTH as it is, or adds the one layer it extracts (R33). -/
theorem Effect.depth_step {i : Instr} {s t : State} (h : Effect i s t) (hv : PhaseInv s) (hi : phaseOf i ≠ none) :
    t.depth = s.depth ∨ t.depth.code.toNat = s.depth.code.toNat + 1 := by
  cases h with
  | extractEth hp =>
    have hd : s.depth = .none := congrArg (·.depth) ((phaseInv_p2 hp).1 hv).1
    rw [hd]; exact .inr rfl
  | extractIp hp =>
    have hd : s.depth = .eth := congrArg (·.depth) ((phaseInv_p5 hp).1 hv).1
    rw [hd]; exact .inr rfl
  | extractTcp hp =>
    have hd : s.depth = .ethIp := congrArg (·.depth) ((phaseInv_p8 hp).1 hv).1
    rw [hd]; exact .inr rfl
  | reset | start => exact absurd rfl hi
  | _ => exact .inl rfl

/-- The record left by a step that ends a decode is one of those of R229, of the frame the state holds. -/
theorem Effect.decodeEnd {i : Instr} {s t : State} (h : Effect i s t) (hv : PhaseInv s) (hi : phaseOf i ≠ none)
    (hd : t.phase = .done) : DecodeEnd s.macOrder s.byte t.len t.record := by
  rw [h.record_of_done hv hi hd, (h.frame_eq hi).2]
  exact decodeEnd_decodeFrame _ _ _

end Sys2Proof.Machine
end

section
/-! Proofs. The obligations of spec/10_state.md. -/

namespace Sys2Proof.Machine

/-- Settles O3, instruction by instruction. -/
theorem decodeEncodeRoundTrip : Obligations.DecodeEncodeRoundTrip :=
  fun _ _ => decode_encode

/-- Settles O4: `decode_sound`, and one rule for each range that selects nothing. -/
theorem decodedInstructionsAreWellFormed : Obligations.DecodedInstructionsAreWellFormed := by
  intro m
  refine ⟨fun c i => decode_sound, ?phase, ?reg, ?byte, ?frameLen, ?etherType, ?ihl, ?protocol, ?dataOffset⟩
  case phase => exact fun k => decode_phase_absent m
  case reg => exact fun k v hk => ⟨decode_readReg_absent m hk, decode_writeReg_absent m v hk⟩
  case byte => exact fun a b ha => ⟨decode_readFb_absent ha, decode_writeFb_absent b ha⟩
  case frameLen => exact fun n => decode_writeFrameLen_tooLong
  case etherType => exact fun x y h => if_neg h
  case ihl => exact fun b => decode_vihlByte_illegal m
  case protocol => exact fun b h => if_neg h
  case dataOffset => exact fun b => decode_dataOffsetByte_illegal m

/-- Settles O29, from the two frame rules and the one byte MemWrite names. -/
theorem onlyTheHostWritesTheFrame : Obligations.OnlyTheHostWritesTheFrame := by
  intro i s t h
  have he := effect_of_exec h
  refine ⟨fun hl hr k => congrFun (he.byte_eq hl hr) k, ?_, he.frameLen_eq⟩
  rintro a b rfl k hk
  obtain ⟨-, -, rfl⟩ := exec_hload_next.1 h
  exact memWrite_byte_other b s hk

/-- Settles O30: of the outcomes only the three extractions write result registers, each those of its own layer. -/
theorem resultRegistersHaveOneWriter : Obligations.ResultRegistersHaveOneWriter :=
  fun _ _ _ _ _ h => (effect_of_exec h).readReg_eq

/-- Settles O31, register by register. -/
theorem depthStopReasonAndWorkingRegistersHaveTheirWriters :
    Obligations.DepthStopReasonAndWorkingRegistersHaveTheirWriters := by
  intro i s t h hs hz
  have he := effect_of_exec h
  exact ⟨he.depth_cases hs hz, he.stopReason_cases hs hz, he.wIphl_of_ne hs hz, he.wTcphl_of_ne hs hz⟩

/-- Settles O39: `fetch` changes the script alone, and every outcome of an instruction keeps the form. -/
theorem frameBufferKeepsItsCanonicalForm : Obligations.FrameBufferKeepsItsCanonicalForm := by
  intro s t hw h
  rcases step_next h with ⟨i, u, hf, he⟩ | hf
  · obtain ⟨⟨l, rfl⟩, -⟩ := fetch_run hf
    exact (effect_of_exec he).fb_wf hw
  · obtain ⟨l, rfl⟩ := fetch_pass hf
    exact hw

/-- Settles O40: every edge of the parse graph leads to the next phase or to DONE. -/
theorem phaseFollowsTheParseGraph : Obligations.PhaseFollowsTheParseGraph := by
  intro i s t hi h
  have he := (effect_of_exec h).mem_parseGraph hi
  exact ⟨he, code_of_mem_parseGraph _ he⟩

/-- Settles O1, register by register. -/
theorem resetLeavesEveryRegisterZero : Obligations.ResetLeavesEveryRegisterZero := by
  refine ⟨rfl, rfl, rfl, rfl, rfl, rfl, fun r => ?_, rfl, rfl, Memory.lookup_nil⟩
  cases r <;> rfl

/-- Settles O2, by running the decoder on each code. -/
theorem writtenOutCodesDecode : Obligations.WrittenOutCodesDecode := by
  unfold Obligations.WrittenOutCodesDecode
  decide

/-- Settles O24: `exec_hread_of_not_free` for the four registers readable in every phase, else `exec_hread_of_not_busy`. -/
theorem hreadResult : Obligations.HreadResult := by
  intro s
  refine ⟨?status, exec_hread_of_not_free rfl s, exec_hread_of_not_free rfl s, exec_hread_of_not_free rfl s, ?results⟩
  case status => rw [← status_toNat]; exact exec_hread_of_not_free rfl s
  case results =>
    intro hb
    have ret := exec_hread_of_not_busy hb
    exact ⟨ret .ethDst, ret .ethSrc, ret .ethType, ret .ipVihl, ret .ipHlen, ret .ipProto, ret .ipSrc, ret .ipDst,
      ret .tcpSport, ret .tcpDport, ret .tcpSeq, ret .tcpAck, ret .tcpDoff, ret .payOff, ret .payLen,
      ret .depth, ret .stopReason, ret .flags⟩

/-- Settles O25: the value is the next free one, cut to the register's width. -/
theorem hreadWhileBusyReturnsAnyValue : Obligations.HreadWhileBusyReturnsAnyValue :=
  fun _ r hb hr => ⟨_, freeReading_lt _ r _, exec_hread_free hb hr⟩

/-- Settles O27, phase by phase. -/
theorem statusIsAViewOfPhase : Obligations.StatusIsAViewOfPhase := by
  intro s
  unfold State.status State.busy State.isDone
  cases s.phase <;> decide

/-- Settles O28, bit by bit. -/
theorem flagsAreAViewOfDepthAndPayLen : Obligations.FlagsAreAViewOfDepthAndPayLen := by
  intro s
  obtain ⟨h0, h1, h2, h3⟩ := flags_getLsbD s
  rw [h0, h1, h2, h3]
  refine ⟨decide_eq_true_iff, decide_eq_true_iff, decide_eq_true_iff, ?payNe, flags_toNat_mod_eight s, rfl⟩
  case payNe => simp [State.payNe, State.tcpV]

/-- Settles O35: `whenPhase` and `whenSelected` test PHASE first. -/
theorem operationsRunOnlyInTheirPhase : Obligations.OperationsRunOnlyInTheirPhase :=
  fun _ _ _ => exec_of_phase_ne

/-- Settles O51: HSTART keeps the buffer, the length and the parameters, and clears every other register. -/
theorem hstartForgetsEarlierFrames : Obligations.HstartForgetsEarlierFrames := by
  intro s t hs ht hl hbyte hlen hmax hmac
  have hl' : t.len ≤ t.maxFrame := by rwa [State.len, ← hlen, ← hmax]
  refine ⟨beginDecode s, beginDecode t, exec_hstart_next.2 ⟨hs, hl, rfl⟩, exec_hstart_next.2 ⟨ht, hl', rfl⟩, ?_⟩
  exact ⟨hbyte, hlen, rfl, rfl, rfl, rfl, hmax, hmac⟩

/-- Settles O36: the base case, in phase IDLE. -/
theorem resetMeetsTheInvariant : Obligations.ResetMeetsTheInvariant := inv_reset

/-- Settles O37, part by part of the invariant and by cases on the outcome of the step's instruction. -/
theorem everyStepKeepsTheInvariant : Obligations.EveryStepKeepsTheInvariant :=
  fun _ _ => Inv.of_step

/-- Settles O42: the invariant fixes DEPTH in the phases of the three extractions. -/
theorem depthNeverDecreasesDuringADecode : Obligations.DepthNeverDecreasesDuringADecode := by
  intro i s t hv hi h
  rcases (effect_of_exec h).depth_step hv.phaseInv hi with hd | hd
  · rw [hd]; omega
  · omega

/-- Settles O43: the record is that of the whole decode, which ends in one of four ways. -/
theorem finishedDecodesAgreeWithTheFrame : Obligations.FinishedDecodesAgreeWithTheFrame := by
  intro i s t hv hi h hd
  have hend := (effect_of_exec h).decodeEnd hv.phaseInv hi hd
  exact ⟨hend.eth_fits, hend.ip_regs, hend.tcp_regs, hend.depth_eq_three_iff⟩

/-- Settles O44: in every phase the record is layered. -/
theorem absentLayersReadZero : Obligations.AbsentLayersReadZero :=
  fun _ _ _ hv hr hd => hv.phaseInv.layered.readReg_eq_zero hr hd

/-- Settles O50: every record that `decode` ends with is layered. -/
theorem decodedFrameLosesOnlyTheStopReason : Obligations.DecodedFrameLosesOnlyTheStopReason :=
  fun o fb len => ⟨layered_decodeFrame o fb len, frameOf_depth _ _⟩

end Sys2Proof.Machine
end

section
/-! Proofs. MemRead's big-endian values as numbers (spec/20_memory.md R64). -/

namespace Sys2Proof.Machine

/-- A byte appended below a value weighs 1, and the value 256 times what it did. -/
theorem toNat_append_byte {w : Nat} (v : BitVec w) (b : Byte) : (v ++ b).toNat = v.toNat * 256 + b.toNat := by
  rw [BitVec.toNat_append, ← Nat.shiftLeft_add_eq_or_of_lt b.isLt, Nat.shiftLeft_eq]

/-- `be32` as a number (R64). -/
theorem be32_toNat (fb : Nat → Byte) (a : Nat) :
    (be32 fb a).toNat = (fb a).toNat * 2 ^ 24 + (fb (a + 1)).toNat * 2 ^ 16 + (fb (a + 2)).toNat * 2 ^ 8 +
      (fb (a + 3)).toNat := by
  rw [be32, toNat_append_byte, toNat_append_byte, toNat_append_byte]
  omega

/-- `be48` as a number (R23, R64). -/
theorem be48_toNat (fb : Nat → Byte) (a : Nat) :
    (be48 fb a).toNat = (fb a).toNat * 2 ^ 40 + (fb (a + 1)).toNat * 2 ^ 32 + (fb (a + 2)).toNat * 2 ^ 24 +
      (fb (a + 3)).toNat * 2 ^ 16 + (fb (a + 4)).toNat * 2 ^ 8 + (fb (a + 5)).toNat := by
  rw [be48, toNat_append_byte, toNat_append_byte, toNat_append_byte, toNat_append_byte, toNat_append_byte]
  omega

end Sys2Proof.Machine
end

section
/-! Proofs. Every read of the frame lies inside it: what the invariant says in a phase covers the row of that phase's
operation in the table of reads (spec/20_memory.md R67; spec/44_decode_function.md R225), so no run faults (R272). -/

namespace Sys2Proof.Machine

/-- The reads `rs` lie inside the frame (R62). -/
def ReadsFit (s : State) (rs : List (Nat × Nat)) : Prop := ∀ r ∈ rs, r.1 + r.2 ≤ s.len

theorem readsFit_nil (s : State) : ReadsFit s [] := nofun

theorem readsFit_cons {s : State} {a n : Nat} {rs : List (Nat × Nat)} :
    ReadsFit s ((a, n) :: rs) ↔ a + n ≤ s.len ∧ ReadsFit s rs := List.forall_mem_cons

/-- Reads inside the frame raise nothing. -/
theorem ReadsFit.not_firstPast {s : State} {rs : List (Nat × Nat)} (h : ReadsFit s rs) (f : Fault) :
    ¬ FirstPast s rs f := by
  rintro ⟨a, n, -, hfind⟩
  have hpast : s.len < a + n := by simpa using List.find?_some hfind
  exact absurd (h _ (List.mem_of_find?_eq_some hfind)) (Nat.not_le.2 hpast)

/-- In its phase an operation or selector reads only what the tests before it have covered (R225). -/
theorem PhaseInv.readsFit {i : Instr} {s : State} (hv : PhaseInv s) (hi : phaseOf i = some s.phase) :
    ReadsFit s (readsOf i s) := by
  have hp {p : Phase} (h : phaseOf i = some p) : s.phase = p := Option.some.inj (hi.symm.trans h)
  cases i with
  | chketh | selip | seltcp | ethertypeIpv4 | protocolTcp => exact readsFit_nil s
  | hreset | hload | hsetlen | hstart | hread | hreadfb => exact readsFit_nil s
  | exteth =>
    obtain ⟨-, hfit, -⟩ := (phaseInv_p2 (hp rfl)).1 hv
    rw [ethFits_iff] at hfit
    simp only [readsOf, readsFit_cons, readsFit_nil, and_true]; omega
  | decihl | ihlLegal =>
    obtain ⟨-, hfit, -⟩ := (phaseInv_p4 (hp rfl)).1 hv
    rw [ipFits_iff] at hfit
    simp only [readsOf, readsFit_cons, readsFit_nil, and_true, l3, Config.ethHlen]; omega
  | extip =>
    obtain ⟨-, hfit, -⟩ := (phaseInv_p5 (hp rfl)).1 hv
    rw [ipFits_iff] at hfit
    simp only [readsOf, readsFit_cons, readsFit_nil, and_true, l3, ipProtoAt, ipSrcAt, ipDstAt, Config.ethHlen]
    omega
  | decdoff | dataOffsetLegal =>
    obtain ⟨-, -, hip, hfit, -⟩ := (phaseInv_p7 (hp rfl)).1 hv
    rw [tcpFits_iff] at hfit
    simp only [readsOf, readsFit_cons, readsFit_nil, and_true, hip.l4_eq]; omega
  | exttcp =>
    obtain ⟨-, -, hip, hfit, -⟩ := (phaseInv_p8 (hp rfl)).1 hv
    rw [tcpFits_iff] at hfit
    simp only [readsOf, readsFit_cons, readsFit_nil, and_true, hip.l4_eq]; omega

/-- No instruction faults where the invariant of the phase holds. -/
theorem PhaseInv.exec_ne_fault {s : State} (hv : PhaseInv s) (i : Instr) (f : Fault) : exec i s ≠ .fault f := by
  intro h
  obtain ⟨hi, hpast⟩ := (exec_fault_iff i s f).1 h
  exact (hv.readsFit hi).not_firstPast f hpast

/-- No step faults where the invariant holds. -/
theorem Inv.step_ne_fault {s : State} (hv : Inv s) (f : Fault) : step s ≠ .fault f := by
  intro h
  obtain ⟨i, u, hf, he⟩ := step_fault h
  obtain ⟨⟨l, rfl⟩, -⟩ := fetch_run hf
  exact (hv.with_script l).phaseInv.exec_ne_fault i f he

/-- An induction over runs: a property that every step keeps, and under which no step faults, keeps every run from
faulting. -/
theorem safeFor_of_step {P : State → Prop} (hstep : ∀ s t, P s → step s = .next t → P t)
    (hsafe : ∀ s f, P s → step s ≠ .fault f) (k : Nat) (s : State) (hs : P s) : SafeFor k s := by
  induction k generalizing s with
  | zero => exact fun _ => nofun
  | succ k ih =>
    intro f
    cases h : step s with
    | next t => rw [run_succ_of_step h]; exact ih t (hstep s t hs h) f
    | fault g => exact absurd h (hsafe s g hs)
    | refused r => rw [run_succ_refused Sys2Proof.core h]; exact nofun

end Sys2Proof.Machine
end

section
/-! Proofs. The bytes a decode reads (spec/44_decode_function.md R225, R227): where they lie, how many they are, and that the
result follows from them. -/

namespace Sys2Proof.Machine

/-- At most 37 bytes: 24 up to the IPv4 header's addresses, and 13 of the TCP header (R227). -/
theorem decodeReads_length_le (fb : Nat → Byte) (len : Nat) : (decodeReads fb len).length ≤ 37 := by
  rw [decodeReads_eq]
  split_ifs <;> simp

/-- Every byte read lies inside the frame, and none past index 86, byte 12 of a TCP header after the longest IPv4 header
(R225). -/
theorem lt_of_mem_decodeReads {fb : Nat → Byte} {len a : Nat} (ha : a ∈ decodeReads fb len) : a < len ∧ a ≤ 86 := by
  have hip := ipHdrLen_le fb
  rw [decodeReads_eq] at ha
  split_ifs at ha <;>
    simp only [List.mem_append, List.mem_range, List.mem_range'_1, List.mem_cons, List.not_mem_nil, or_false] at ha <;>
    omega

section
variable {f g : Nat → Byte} {a len : Nat} {o : Config.MacOrder}

/-! ## Which bytes are read once a phase has passed -/

theorem mem_decodeReads_eth (hl : 14 ≤ len) (ha : a < 14) : a ∈ decodeReads f len := by
  rw [decodeReads_eq, if_neg (by omega)]
  split_ifs <;> simp [ha]

theorem mem_decodeReads_ihl (ht : be16 f 12 = 0x0800) (hl : 34 ≤ len) : 14 ∈ decodeReads f len := by
  rw [decodeReads_eq, if_neg (by omega), if_neg (by simp [ht]; omega)]
  split_ifs <;> simp

theorem mem_decodeReads_ip (hi : IpValid f len) (ha : a = 23 ∨ 26 ≤ a ∧ a < 34) : a ∈ decodeReads f len := by
  obtain ⟨ht, hl, h20, hfit⟩ := hi
  rw [decodeReads_eq, if_neg (by omega), if_neg (by simp [ht]; omega), if_neg (by omega)]
  split_ifs <;> simp only [List.mem_append, List.mem_cons, List.mem_range'_1] <;> omega

theorem mem_decodeReads_doff (hi : IpValid f len) (hp : f 23 = 6) (hm : 14 + ipHdrLen f + 20 ≤ len) :
    14 + ipHdrLen f + 12 ∈ decodeReads f len := by
  obtain ⟨ht, hl, h20, hfit⟩ := hi
  rw [decodeReads_eq, if_neg (by omega), if_neg (by simp [ht]; omega), if_neg (by omega), if_neg (by simp [hp]; omega)]
  split_ifs <;> simp

theorem mem_decodeReads_tcp (hi : IpValid f len) (htcp : TcpValid f len) (ha : 14 + ipHdrLen f ≤ a)
    (ha' : a ≤ 14 + ipHdrLen f + 12) : a ∈ decodeReads f len := by
  obtain ⟨ht, hl, h20, hfit⟩ := hi
  obtain ⟨hp, ht20, htfit⟩ := htcp
  rw [decodeReads_eq, if_neg (by omega), if_neg (by simp [ht]; omega), if_neg (by omega), if_neg (by simp [hp]; omega),
    if_neg (by omega)]
  simp only [List.mem_append, List.mem_cons, List.mem_range'_1]; omega

/-! ## The values are those of the bytes -/

theorem be16_congr (h : ∀ k, a ≤ k → k < a + 2 → f k = g k) : be16 f a = be16 g a := by
  rw [be16, be16, h a (by omega) (by omega), h (a + 1) (by omega) (by omega)]

theorem be32_congr (h : ∀ k, a ≤ k → k < a + 4 → f k = g k) : be32 f a = be32 g a := by
  rw [be32, be32, h a (by omega) (by omega), h (a + 1) (by omega) (by omega), h (a + 2) (by omega) (by omega),
    h (a + 3) (by omega) (by omega)]

theorem be48_congr (h : ∀ k, a ≤ k → k < a + 6 → f k = g k) : be48 f a = be48 g a := by
  rw [be48, be48, h a (by omega) (by omega), h (a + 1) (by omega) (by omega), h (a + 2) (by omega) (by omega),
    h (a + 3) (by omega) (by omega), h (a + 4) (by omega) (by omega), h (a + 5) (by omega) (by omega)]

/-- Bytes 0 to 13 decide what P2 writes (R131). -/
theorem recordEth_congr (h : ∀ k < 14, f k = g k) : recordEth o f = recordEth o g := by
  have h0 : be48 f 0 = be48 g 0 := be48_congr fun k _ _ => h k (by omega)
  have h6 : be48 f 6 = be48 g 6 := be48_congr fun k _ _ => h k (by omega)
  have h12 : be16 f 12 = be16 g 12 := be16_congr fun k _ _ => h k (by omega)
  rw [recordEth, recordEth, h0, h6, h12]

theorem ipHdrLen_congr (h : f 14 = g 14) : ipHdrLen f = ipHdrLen g := by
  rw [ipHdrLen_eq, ipHdrLen_eq, h]

/-- Bytes 14, 23 and 26 to 33 decide what P5 writes beside the Ethernet record (R151). -/
theorem recordIp_congr (he : ∀ k < 14, f k = g k) (h14 : f 14 = g 14) (h23 : f 23 = g 23)
    (h : ∀ k, 26 ≤ k → k < 34 → f k = g k) : recordIp o f = recordIp o g := by
  have h26 : be32 f 26 = be32 g 26 := be32_congr fun k _ _ => h k (by omega) (by omega)
  have h30 : be32 f 30 = be32 g 30 := be32_congr fun k _ _ => h k (by omega) (by omega)
  rw [recordIp, recordIp, recordEth_congr he, ipHdrLen_congr h14, h14, h23, h26, h30]

theorem tcpHdrLen_congr (h14 : f 14 = g 14) (h : f (14 + ipHdrLen f + 12) = g (14 + ipHdrLen f + 12)) :
    tcpHdrLen f = tcpHdrLen g := by
  rw [tcpHdrLen_eq, tcpHdrLen_eq, ← ipHdrLen_congr h14, h]

/-- The first 13 bytes of the TCP header decide what P8 writes beside the IPv4 record (R171). -/
theorem recordTcp_congr (hi : recordIp o f = recordIp o g) (h14 : f 14 = g 14)
    (h : ∀ k, 14 + ipHdrLen f ≤ k → k ≤ 14 + ipHdrLen f + 12 → f k = g k) :
    recordTcp o f len = recordTcp o g len := by
  have hl : ipHdrLen g = ipHdrLen f := (ipHdrLen_congr h14).symm
  have ht : tcpHdrLen g = tcpHdrLen f := (tcpHdrLen_congr h14 (h _ (by omega) (by omega))).symm
  have h0 : be16 f (14 + ipHdrLen f) = be16 g (14 + ipHdrLen f) :=
    be16_congr fun k _ _ => h k (by omega) (by omega)
  have h2 : be16 f (14 + ipHdrLen f + 2) = be16 g (14 + ipHdrLen f + 2) :=
    be16_congr fun k _ _ => h k (by omega) (by omega)
  have h4 : be32 f (14 + ipHdrLen f + 4) = be32 g (14 + ipHdrLen f + 4) :=
    be32_congr fun k _ _ => h k (by omega) (by omega)
  have h8 : be32 f (14 + ipHdrLen f + 8) = be32 g (14 + ipHdrLen f + 8) :=
    be32_congr fun k _ _ => h k (by omega) (by omega)
  simp only [recordTcp, l3, Config.ethHlen, hi, hl, ht, h0, h2, h4, h8]

/-! ## The decode is a function of the bytes it reads -/

/-- Buffers that agree on the bytes read have the same decode: test by test, the bytes read so far decide the test and the
record it ends with (R227). -/
theorem decodeFrame_congr (h : ∀ a ∈ decodeReads f len, f a = g a) : decodeFrame o f len = decodeFrame o g len := by
  symm
  rw [decodeFrame_eq, decodeFrame_eq]
  refine ite_congr rfl (fun _ => rfl) fun hl => ?_
  have heth : ∀ k < 14, f k = g k := fun k hk => h k (mem_decodeReads_eth (by omega) hk)
  have hty : be16 f 12 = be16 g 12 := be16_congr fun k _ _ => heth k (by omega)
  have hrecEth : recordEth o f = recordEth o g := recordEth_congr heth
  refine ite_congr (by rw [hty]) (fun _ => by rw [hrecEth]) fun ht => ?_
  rw [not_not] at ht
  refine ite_congr rfl (fun _ => by rw [hrecEth]) fun h34 => ?_
  have h14 : f 14 = g 14 := h 14 (mem_decodeReads_ihl ht (by omega))
  have hhl : ipHdrLen f = ipHdrLen g := ipHdrLen_congr h14
  refine ite_congr (by rw [hhl]) (fun _ => by rw [hrecEth]) fun hhdr => ?_
  have hip : IpValid f len := ⟨ht, by omega, by omega, by omega⟩
  have h23 : f 23 = g 23 := h 23 (mem_decodeReads_ip hip (.inl rfl))
  have hrecIp : recordIp o f = recordIp o g :=
    recordIp_congr heth h14 h23 fun k hk hk' => h k (mem_decodeReads_ip hip (.inr ⟨hk, hk'⟩))
  refine ite_congr (by rw [h23]) (fun _ => by rw [hrecIp]) fun hp => ?_
  rw [not_not] at hp
  refine ite_congr (by rw [hhl]) (fun _ => by rw [hrecIp]) fun hfit => ?_
  have htl : tcpHdrLen f = tcpHdrLen g := tcpHdrLen_congr h14 (h _ (mem_decodeReads_doff hip hp (by omega)))
  refine ite_congr (by rw [hhl, htl]) (fun _ => by rw [hrecIp]) fun hthdr => ?_
  have htcp : TcpValid f len := ⟨hp, by omega, by omega⟩
  exact (recordTcp_congr hrecIp h14 fun k hk hk' => h k (mem_decodeReads_tcp hip htcp hk hk')).symm

end

end Sys2Proof.Machine
end

section
/-! Proofs. Loading a frame from a host script (spec/30_encoding.md R118; spec/43_host_commands.md R191 to R193). -/

namespace Sys2Proof.Machine

/-- An issued access that decodes to a command runs it, once its line has left the script (R115). -/
theorem step_issue {s : State} {a : Access} {rest : List HostAction} {i : Instr} (hs : s.script = .issue a :: rest)
    (hd : decode s.maxFrame (.access a) = .instr i) : step s = exec i { s with script := rest } :=
  step_of_run ((fetch_issue hs).trans (fetchAccess_instr hd))

/-- The buffer after one write for each byte of F, the first at index `at0`. -/
def Memory.writeAll (m : Memory) (at0 : Nat) : List Byte → Memory
  | [] => m
  | b :: f => Memory.writeAll (Memory.write m at0 b) (at0 + 1) f

/-- Writes from an index on leave the bytes below it. -/
theorem Memory.lookup_writeAll_below (m : Memory) {at0 a : Nat} (f : List Byte) (h : a < at0) :
    Memory.lookup (m.writeAll at0 f) a = Memory.lookup m a := by
  induction f generalizing m at0 with
  | nil => rfl
  | cons b f ih => rw [writeAll, ih _ (Nat.lt_succ_of_lt h), Memory.lookup_write_other m b (Nat.ne_of_lt h)]

/-- The bytes written are those of F. -/
theorem Memory.lookup_writeAll (m : Memory) (at0 : Nat) (f : List Byte) {k : Nat} (h : k < f.length) :
    Memory.lookup (m.writeAll at0 f) (at0 + k) = some f[k] := by
  induction f generalizing m at0 k with
  | nil => cases h
  | cons b f ih =>
    cases k with
    | zero => exact (Memory.lookup_writeAll_below _ f (Nat.lt_succ_self at0)).trans (Memory.lookup_write_same m at0 b)
    | succ k => rw [writeAll, show at0 + (k + 1) = at0 + 1 + k by omega, ih _ _ (Nat.lt_of_succ_lt_succ h)]; rfl

/-- The loads of a frame run to their end where the engine is not BUSY and the frame fits the buffer (R191). -/
theorem run_loadLines {s : State} {at0 : Nat} {f : List Byte} {rest : List HostAction} (hb : s.busy = false)
    (hf : at0 + f.length ≤ s.maxFrame) (hs : s.script = loadLines at0 f ++ rest) :
    Sys2Proof.core.run f.length s = .next { s with fb := s.fb.writeAll at0 f, script := rest } := by
  induction f generalizing s at0 with
  | nil => rw [Memory.writeAll, ← show s.script = rest from hs]; rfl
  | cons b f ih =>
    rw [List.length_cons] at hf
    have hstep : step s = .next (memWrite at0 b { s with script := loadLines (at0 + 1) f ++ rest }) := by
      rw [step_issue hs (if_pos (by omega))]
      exact exec_hload_next.2 ⟨hb, (by omega : at0 < s.maxFrame), rfl⟩
    exact (run_succ_of_step hstep).trans (ih hb (by omega : at0 + 1 + f.length ≤ s.maxFrame) rfl)

/-- What `SUBMIT F` leaves: F in the buffer, its length in FRAME_LEN, and the decode begun (R118). -/
def State.submitted (s : State) (f : List Byte) (rest : List HostAction) : State :=
  beginDecode { s with frameLen := f.length, fb := s.fb.writeAll 0 f, script := rest }

@[simp] theorem submitted_len (s : State) (f : List Byte) (rest : List HostAction) :
    (s.submitted f rest).len = f.length := rfl
@[simp] theorem submitted_macOrder (s : State) (f : List Byte) (rest : List HostAction) :
    (s.submitted f rest).macOrder = s.macOrder := rfl
@[simp] theorem submitted_script (s : State) (f : List Byte) (rest : List HostAction) :
    (s.submitted f rest).script = rest := rfl
@[simp] theorem submitted_replies (s : State) (f : List Byte) (rest : List HostAction) :
    (s.submitted f rest).replies = s.replies := rfl
@[simp] theorem submitted_busy (s : State) (f : List Byte) (rest : List HostAction) :
    (s.submitted f rest).busy = true := rfl

theorem submitted_phaseInv (s : State) (f : List Byte) (rest : List HostAction) : PhaseInv (s.submitted f rest) :=
  (phaseInv_p1 rfl).2 ⟨rfl, rfl, rfl⟩

/-- FB holds F from index 0 on (R12). -/
theorem submitted_byte (s : State) {f : List Byte} (rest : List HostAction) {k : Nat} (hk : k < f.length) :
    (s.submitted f rest).byte k = f[k] := by
  have hlookup := Memory.lookup_writeAll s.fb 0 f hk
  rw [Nat.zero_add] at hlookup
  change ((s.fb.writeAll 0 f).lookup k).getD _ = _
  rw [hlookup]; rfl

/-- `SUBMIT F` runs to its end from a state that is not BUSY, where F fits the buffer (R118, R303). -/
theorem run_submit {s : State} {f : List Byte} {rest : List HostAction} (hb : s.busy = false)
    (hf : f.length ≤ s.maxFrame) (hs : s.script = submit f ++ rest) :
    Sys2Proof.core.run (f.length + 2) s = .next (s.submitted f rest) := by
  have hlen : step s =
      .next { s with frameLen := f.length, script := loadLines 0 f ++ .issue (.writeReg 16 1) :: rest } := by
    have hw : f.length < 2 ^ s.lenW := Config.lt_two_pow_lenWOf_of_le hf
    have hs' : s.script = .issue (.writeReg 18 f.length) :: (loadLines 0 f ++ .issue (.writeReg 16 1) :: rest) := by
      rw [hs, submit]; simp
    rw [step_issue hs' (if_pos hw)]
    exact exec_hsetlen_next.2 ⟨hb, hw, rfl⟩
  have hstart : step { s with frameLen := f.length, fb := s.fb.writeAll 0 f, script := .issue (.writeReg 16 1) :: rest } =
      .next (s.submitted f rest) := by
    rw [step_issue rfl rfl]
    exact exec_hstart_next.2 ⟨hb, hf, rfl⟩
  calc Sys2Proof.core.run (f.length + 2) s
    _ = _ := run_succ_of_step hlen
    _ = _ := run_add (run_loadLines hb (by simpa using hf) rfl)
    _ = _ := run_succ_of_step hstart

end Sys2Proof.Machine
end

section
/-! Proofs. The engine's turns of a decode: while BUSY the operation PHASE names goes on, and leaves what the next phase asks
for (spec/43_host_commands.md R196; spec/44_decode_function.md R211, R215). -/

namespace Sys2Proof.Machine

/-- While BUSY, PHASE names the parse operation of that phase (R40, R196). -/
theorem exists_parseOp_of_busy {s : State} (hb : s.busy = true) :
    ∃ i, decode s.maxFrame (.phase s.phase.code) = .instr i ∧ i.family = .parseOp ∧ phaseOf i = some s.phase := by
  unfold State.busy at hb
  cases hp : s.phase with
  | idle | done => rw [hp] at hb; cases hb
  | _ => exact ⟨_, rfl, rfl, rfl⟩

/-- An operation is refused out of its phase alone. -/
theorem whenPhase_ne_refused {p : Phase} {s : State} (h : s.phase = p) (x : Except Fault State) (r : Refusal) :
    whenPhase p s x ≠ .refused r := by
  cases x <;> simp [whenPhase, h]

theorem exec_parseOp_ne_refused {i : Instr} {s : State} (hf : i.family = .parseOp) (hi : phaseOf i = some s.phase)
    (r : Refusal) : exec i s ≠ .refused r := by
  cases i with
  | chketh | selip | seltcp => exact whenPhase_ne_refused (Option.some.inj hi).symm (.ok _) r
  | exteth | decihl | extip | decdoff | exttcp => exact whenPhase_ne_refused (Option.some.inj hi).symm _ r
  | _ => cases hf

/-- While BUSY with the invariant of the phase, the engine's operation goes on: it neither faults nor is refused (R196). -/
theorem PhaseInv.exists_engine_step {s : State} (hv : PhaseInv s) (hb : s.busy = true) :
    ∃ i t, decode s.maxFrame (.phase s.phase.code) = .instr i ∧ phaseOf i ≠ none ∧ exec i s = .next t := by
  obtain ⟨i, hd, hf, hi⟩ := exists_parseOp_of_busy hb
  cases h : exec i s with
  | next t => exact ⟨i, t, hd, by rw [hi]; nofun, h⟩
  | fault f => exact absurd h (hv.exec_ne_fault i f)
  | refused r => exact absurd h (exec_parseOp_ne_refused hf hi r)

section
variable {i : Instr} {s t : State}

/-- A decode that has not ended after a step of the engine is BUSY (R32). -/
theorem Effect.busy_of_ne_done (h : Effect i s t) (hi : phaseOf i ≠ none) (hd : t.phase ≠ .done) : t.busy = true :=
  ((by decide : ∀ e ∈ parseGraph, e.2 = .done ∨ e.2.isBusy = true) _ (h.mem_parseGraph hi)).resolve_left hd

/-- A parse operation or selector leaves the host's script and replies as they are (R196). -/
theorem Effect.host_eq (h : Effect i s t) (hi : phaseOf i ≠ none) : t.script = s.script ∧ t.replies = s.replies := by
  cases h with
  | reset | load | setLen | start | readReg | readFb => exact absurd rfl hi
  | _ => exact ⟨rfl, rfl⟩

/-- Until the decode ends, the invariant of each phase follows from that of the phase before it alone, whatever form the
buffer has (R215). -/
theorem Effect.phaseInv_of_ne_done (h : Effect i s t) (hv : PhaseInv s) (hi : phaseOf i ≠ none) (hd : t.phase ≠ .done) :
    PhaseInv t := by
  cases h with
  | truncated | unsupportedEtherType | ipTooShort | ipHdrBad | unsupportedIpProtocol | tcpTooShort | tcpHdrBad
  | extractTcp => exact absurd rfl hd
  | reset | load | setLen | start | readReg | readFb => exact absurd rfl hi
  | ethFits hp hl =>
    obtain ⟨hr, hw⟩ := (phaseInv_p1 hp).1 hv
    exact (phaseInv_p2 rfl).2 ⟨hr, hl, hw⟩
  | extractEth hp =>
    obtain ⟨hr, hf, hw⟩ := (phaseInv_p2 hp).1 hv
    exact (phaseInv_p3 rfl).2 ⟨putEth_record hr, hf, hw⟩
  | ipFits _ hp ht hl =>
    obtain ⟨hr, -, hw⟩ := (phaseInv_p3 hp).1 hv
    exact (phaseInv_p4 rfl).2 ⟨hr, ⟨ethType_of_record hr ▸ ht, hl⟩, hw⟩
  | ipHdrOk _ hp h20 hl =>
    obtain ⟨hr, hf, -, hw⟩ := (phaseInv_p4 hp).1 hv
    exact (phaseInv_p5 rfl).2 ⟨hr, hf, ⟨h20, hl, (ipHdrLen_eq s.byte).symm⟩, hw⟩
  | extractIp hp =>
    obtain ⟨hr, hf, hip, hw⟩ := (phaseInv_p5 hp).1 hv
    exact (phaseInv_p6 rfl).2 ⟨putIp_record hr hip, hf, hip, hw⟩
  | tcpFits _ hp ht hl =>
    obtain ⟨hr, hf, hip, hw⟩ := (phaseInv_p6 hp).1 hv
    have ⟨_, _, hwip⟩ := hip
    rw [hwip] at hl
    exact (phaseInv_p7 rfl).2 ⟨hr, hf, hip, ⟨ipProto_of_record hr ▸ ht, hl⟩, hw⟩
  | tcpHdrOk _ hp h20 hl =>
    obtain ⟨hr, hf, hip, htcp, -⟩ := (phaseInv_p7 hp).1 hv
    have hlen := hip.tcpHdrLen_eq
    rw [← hlen] at h20
    rw [← hlen, hip.l4_eq] at hl
    exact (phaseInv_p8 rfl).2 ⟨hr, hf, hip, htcp, h20, hl, (hdrLenOf_toNat _).trans hlen.symm⟩

end

end Sys2Proof.Machine
end

section
/-! Proofs. HWAIT and the reads after it, in a run of a host script (spec/30_encoding.md R118; spec/43_host_commands.md R194,
R196; assumption log 1). -/

namespace Sys2Proof.Machine

/-- Some run leads from one state to the other. -/
def Reaches (s t : State) : Prop := ∃ k, Sys2Proof.core.run k s = .next t

theorem Reaches.of_step {s t : State} (h : step s = .next t) : Reaches s t := ⟨1, run_succ_of_step h⟩

theorem Reaches.trans {s t u : State} (h : Reaches s t) (h' : Reaches t u) : Reaches s u := by
  obtain ⟨j, hj⟩ := h
  obtain ⟨k, hk⟩ := h'
  exact ⟨j + k, (run_add hj).trans hk⟩

/-- HWAIT reads STATUS, and ends with its line where that reads DONE (R118). -/
theorem step_wait {s : State} {rest : List HostAction} (hs : s.script = .wait :: rest) :
    step s = .next (reply s.status.toNat
      { s with script := if s.phase = .done then rest else .yield :: .wait :: rest }) :=
  (step_of_run (fetch_wait hs)).trans (exec_hread_of_not_free rfl _)

/-- A round of HWAIT while BUSY: a read of STATUS that returns 1, and one operation of the engine (R196). -/
theorem reaches_wait_round {s : State} {rest : List HostAction} (hb : s.busy = true) (hv : PhaseInv s)
    (hs : s.script = .wait :: rest) : ∃ i t, phaseOf i ≠ none ∧ Effect i (reply 1 s) t ∧ Reaches s t := by
  obtain ⟨i, t, hd, hi, he⟩ := PhaseInv.exists_engine_step (s := reply 1 s) hv hb
  have hnd : s.phase ≠ .done := fun h => by rw [State.busy, h] at hb; cases hb
  have hread : step s = .next { reply 1 s with script := .yield :: .wait :: rest } := by
    rw [step_wait hs, status_toNat, if_pos hb, if_neg hnd, if_neg hnd]; rfl
  have hop : step { reply 1 s with script := .yield :: .wait :: rest } = .next t := by
    have hback : { reply 1 s with script := .wait :: rest } = reply 1 s := by rw [← hs]; rfl
    have hfetch := fetch_yield_of_busy (s := { reply 1 s with script := .yield :: .wait :: rest }) rfl hb
    exact (step_of_run (hfetch.trans (fetchEngine_instr hd))).trans ((congrArg (exec i) hback).trans he)
  exact ⟨i, t, hi, effect_of_exec he, (Reaches.of_step hread).trans (.of_step hop)⟩

/-- HWAIT runs a decode to its end: each read of STATUS before that returns 1, and the record is that of `decode` (R118,
R211). -/
theorem reaches_done_of_wait {s : State} {rest : List HostAction} (hb : s.busy = true) (hv : PhaseInv s)
    (hs : s.script = .wait :: rest) :
    ∃ t n, Reaches s t ∧ t.phase = .done ∧ t.script = .wait :: rest ∧
      t.record = decodeFrame s.macOrder s.byte s.len ∧ t.replies = s.replies ++ List.replicate n 1 := by
  obtain ⟨i, t, hi, he, hreach⟩ := reaches_wait_round hb hv hs
  obtain ⟨hscript, hreplies⟩ := he.host_eq hi
  by_cases hd : t.phase = .done
  · exact ⟨t, 1, hreach, hd, hscript.trans hs, he.record_of_done hv hi hd, hreplies⟩
  · have hnext : t.phase.code.toNat = s.phase.code.toNat + 1 :=
      (code_of_mem_parseGraph _ (he.mem_parseGraph hi)).resolve_right hd
    have hlt := t.phase.code.isLt
    obtain ⟨u, n, htu, hu, huscript, hurecord, hureplies⟩ :=
      reaches_done_of_wait (he.busy_of_ne_done hi hd) (he.phaseInv_of_ne_done hv hi hd) (hscript.trans hs)
    obtain ⟨hbyte, hlen⟩ := he.frame_eq hi
    refine ⟨u, n + 1, hreach.trans htu, hu, huscript, ?_, ?_⟩
    · rw [hurecord, he.macOrder_eq, hbyte, hlen]; rfl
    · rw [hureplies, hreplies, reply_replies, List.append_assoc, List.replicate_succ]; rfl
termination_by 16 - s.phase.code.toNat

/-- The same engine, with the host's script and replies given. -/
def State.withHost (s : State) (script : List HostAction) (replies : List Nat) : State :=
  { s with script := script, replies := replies }

/-- What the registers read as depends on the engine alone (R194). -/
@[simp] theorem readReg_withHost (r : Reg) (s : State) (l : List HostAction) (v : List Nat) :
    readReg r (s.withHost l v) = readReg r s := by
  cases r <;> rfl

@[simp] theorem collected_withHost (s : State) (l : List HostAction) (v : List Nat) :
    collected (s.withHost l v) = collected s := by
  simp only [collected, readReg_withHost]

/-- HWAIT ends with a read of STATUS that returns 2 (R118). -/
theorem step_wait_of_done {s : State} {rest : List HostAction} (hd : s.phase = .done) (hs : s.script = .wait :: rest) :
    step s = .next (s.withHost rest (s.replies ++ [2])) := by
  have hb : s.busy = false := (busy_eq_false_iff s).2 (.inr hd)
  rw [step_wait hs, status_toNat, if_pos hd, if_pos hd, hb]; rfl

/-- A read of a register while the engine is not BUSY returns it (R194). -/
theorem step_read {s : State} {r : Reg} {rest : List HostAction} (hb : s.busy = false)
    (hs : s.script = .issue (.readReg r.number) :: rest) :
    step s = .next (s.withHost rest (s.replies ++ [readReg r s])) := by
  have hr := readReg_withHost r s rest s.replies
  rw [step_issue hs (decode_readReg_number _ r), exec_hread_of_not_busy (s := { s with script := rest }) hb, ← hr]; rfl

/-- A row of reads while the engine is not BUSY returns the registers in its order (R194). -/
theorem run_reads {s : State} {regs : List Reg} {rest : List HostAction} (hb : s.busy = false)
    (hs : s.script = (regs.map fun r => .issue (.readReg r.number)) ++ rest) :
    Sys2Proof.core.run regs.length s = .next (s.withHost rest (s.replies ++ regs.map fun r => readReg r s)) := by
  induction regs generalizing s with
  | nil => rw [← show s.script = rest from hs, List.map_nil, List.append_nil]; rfl
  | cons r regs ih =>
    rw [List.map_cons, List.append_cons, ← funext fun q => readReg_withHost q s _ (s.replies ++ [readReg r s])]
    exact (run_succ_of_step (step_read hb hs)).trans (ih hb rfl)

/-- The registers that the reads of `DECODE F` return, in their order (R118). -/
def collectedRegs : List Reg :=
  [.depth, .stopReason, .flags, .ethDst, .ethSrc, .ethType, .ipVihl, .ipHlen, .ipProto, .ipSrc, .ipDst,
    .tcpSport, .tcpDport, .tcpSeq, .tcpAck, .tcpDoff, .payOff, .payLen]

theorem collect_eq : collect = collectedRegs.map fun r => .issue (.readReg r.number) := rfl

theorem collected_eq (s : State) : collected s = collectedRegs.map fun r => readReg r s := rfl

/-- After a decode, HWAIT's last read of STATUS returns 2 and the reads that follow return the registers (R118). -/
theorem reaches_collected {s : State} (hd : s.phase = .done) (hs : s.script = hwait ++ collect) :
    Reaches s (s.withHost [] (s.replies ++ [2] ++ collected s)) := by
  have hb : s.busy = false := (busy_eq_false_iff s).2 (.inr hd)
  rw [← collected_withHost s collect (s.replies ++ [2]), collected_eq]
  exact (Reaches.of_step (step_wait_of_done hd hs)).trans ⟨_, run_reads hb (collect_eq.trans (List.append_nil _).symm)⟩

end Sys2Proof.Machine
end

section
/-! Proofs. The obligations of spec/20_memory.md. -/

namespace Sys2Proof.Machine

/-- Settles O38: the invariant keeps each operation's reads inside the frame, and every step keeps the invariant. -/
theorem noRunReadsPastTheFrame : Obligations.NoRunReadsPastTheFrame :=
  fun s hv k => safeFor_of_step (fun _ _ => Inv.of_step) (fun _ f hs => hs.step_ne_fault f) k s hv

/-- Settles O8, from the values of `be16`, `be32` and `be48` as numbers; the guard is MemRead's definition. -/
theorem memReadIsGuardedAndBigEndian : Obligations.MemReadIsGuardedAndBigEndian :=
  fun a s => ⟨rfl, ⟨_, rfl, be16_toNat s.byte a⟩, ⟨_, rfl, be32_toNat s.byte a⟩, ⟨_, rfl, be48_toNat s.byte a⟩⟩

/-- Settles O47, from where the bytes read lie, how many they are, and `decodeFrame_congr`. -/
theorem decodeDependsOnlyOnTheListedBytes : Obligations.DecodeDependsOnlyOnTheListedBytes :=
  fun _ f _ len => ⟨decodeReads_length_le f len, fun _ => lt_of_mem_decodeReads, decodeFrame_congr⟩

/-- Settles O54: SUBMIT loads F and begins the decode, HWAIT runs it to its end, and the reads return the registers; the
record is that of F, since a decode reads inside the frame alone. -/
theorem decodeScriptReturnsTheDecodedFrame : Obligations.DecodeScriptReturnsTheDecodedFrame := by
  intro f s hf hb hs
  have hsubmit : Reaches s (s.submitted f (hwait ++ collect)) :=
    ⟨_, run_submit hb hf (by rw [hs, decodeScript, List.append_assoc])⟩
  obtain ⟨t, n, hwaited, hd, hscript, hrecord, hreplies⟩ :=
    reaches_done_of_wait (submitted_busy s f _) (submitted_phaseInv s f _) (submitted_script s f (hwait ++ collect))
  obtain ⟨k, hk⟩ := (hsubmit.trans hwaited).trans (reaches_collected hd hscript)
  refine ⟨k, _, n, hk, rfl, hd, hrecord.trans ?record, ?replies⟩
  case record =>
    rw [submitted_macOrder, submitted_len]
    refine decodeFrame_congr fun a ha => ?_
    have hlt : a < f.length := (lt_of_mem_decodeReads ha).1
    rw [submitted_byte s _ hlt, List.getD_eq_getElem f 0 hlt]
  case replies =>
    rw [collected_withHost, ← submitted_replies s f (hwait ++ collect), ← hreplies]; rfl

end Sys2Proof.Machine
end

section
/-! Proofs. The wire selectors: the values of a field that select an instruction, and what P3, P4, P6 and P7 make of them
(spec/30_encoding.md R92 to R102, R110, R112). -/

namespace Sys2Proof

/-! ## The selector fields as numbers -/

theorem ihlOf_eq_iff (b : Byte) (n : Nibble) : ihlOf b = n ↔ b.toNat % 16 = n.toNat := by
  rw [BitVec.toNat_eq, ihlOf_toNat]

theorem dataOffsetOf_eq_iff (b : Byte) (n : Nibble) : dataOffsetOf b = n ↔ b.toNat / 16 = n.toNat := by
  rw [BitVec.toNat_eq, dataOffsetOf_toNat]

theorem ihlOf_eq_ofNat (b : Byte) : ihlOf b = BitVec.ofNat 4 b.toNat := by
  rw [ihlOf_eq_iff, BitVec.toNat_ofNat]

theorem dataOffsetOf_eq_ofNat (b : Byte) : dataOffsetOf b = BitVec.ofNat 4 (b.toNat / 16) := by
  rw [← dataOffsetOf_toNat, BitVec.ofNat_toNat, BitVec.setWidth_eq]

theorem hdrLenOf_eq_ofNat (n : Nibble) : hdrLenOf n = BitVec.ofNat 6 (4 * n.toNat) := by
  rw [← hdrLenOf_toNat, BitVec.ofNat_toNat, BitVec.setWidth_eq]

/-! ## The values that select -/

/-- The decoder of a selector field tests one condition on the value and selects one instruction. -/
theorem decoded_ite_eq_instr_iff {c : Prop} [Decidable c] {i j : Instr} {r : DecodeReject} :
    (if c then Decoded.instr j else .rejected r) = .instr i ↔ c ∧ i = j := by
  split_ifs with h
  · simp [h, eq_comm]
  · simp [h]

/-- Only the big-endian value 0x0800 selects (R92, R93). -/
theorem decode_etherTypeBytes_eq_instr_iff (m : Nat) (a b : Byte) (i : Instr) :
    decode m (.etherTypeBytes a b) = .instr i ↔ a.toNat * 256 + b.toNat = 0x0800 ∧ i = .ethertypeIpv4 := by
  have hval : (a ++ b).toNat = 0x0800 ↔ a ++ b = 0x0800#16 := BitVec.toNat_inj (y := 0x0800#16)
  rw [← Machine.toNat_append_byte, hval]
  exact decoded_ite_eq_instr_iff

/-- The `ihl` values 5 to 15 select (R96, R97). -/
theorem decode_vihlByte_eq_instr_iff (m : Nat) (b : Byte) (i : Instr) :
    decode m (.vihlByte b) = .instr i ↔ 5 ≤ b.toNat % 16 ∧ i = .ihlLegal (BitVec.ofNat 4 b.toNat) := by
  rw [← ihlOf_toNat, ← ihlOf_eq_ofNat]
  exact decoded_ite_eq_instr_iff

/-- Only the protocol 6 selects (R98). -/
theorem decode_protocolByte_eq_instr_iff (m : Nat) (b : Byte) (i : Instr) :
    decode m (.protocolByte b) = .instr i ↔ b.toNat = 6 ∧ i = .protocolTcp := by
  have hval : b.toNat = 6 ↔ b = 6#8 := BitVec.toNat_inj (y := 6#8)
  rw [hval]
  exact decoded_ite_eq_instr_iff

/-- The `data_offset` values 5 to 15 select (R101, R102). -/
theorem decode_dataOffsetByte_eq_instr_iff (m : Nat) (b : Byte) (i : Instr) :
    decode m (.dataOffsetByte b) = .instr i ↔
      5 ≤ b.toNat / 16 ∧ i = .dataOffsetLegal (BitVec.ofNat 4 (b.toNat / 16)) := by
  rw [← dataOffsetOf_eq_ofNat, ← dataOffsetOf_toNat]
  exact decoded_ite_eq_instr_iff

namespace Machine

/-! ## What P4 and P7 make of a nibble -/

/-- P4 stops on a nibble that selects nothing (R97, R150). -/
theorem acceptIhl_illegal {n : Nibble} (h : ¬ 5 ≤ n.toNat) (s : State) :
    acceptIhl n s = raiseStop .invalidOrTruncatedIpHeader s := by
  rcases acceptIhl_cases n s with ⟨-, e⟩ | ⟨h20, -⟩
  · exact e
  · omega

/-- On a nibble that selects, P4 tests the length alone (R97, R150). -/
theorem acceptIhl_legal {n : Nibble} (h : 5 ≤ n.toNat) (s : State) :
    acceptIhl n s = if 14 + 4 * n.toNat > s.len then raiseStop .invalidOrTruncatedIpHeader s
      else { s with wIphl := BitVec.ofNat 6 (4 * n.toNat), phase := .p5 } := by
  rcases acceptIhl_cases n s with ⟨hbad, e⟩ | ⟨-, hfit, e⟩
  · rw [e, if_pos (by omega)]
  · rw [e, if_neg (by omega), hdrLenOf_eq_ofNat]

/-- P7 stops on a nibble that selects nothing (R102, R170). -/
theorem acceptDoff_illegal {n : Nibble} (h : ¬ 5 ≤ n.toNat) (s : State) :
    acceptDoff n s = raiseStop .invalidOrTruncatedTcpHeader s := by
  rcases acceptDoff_cases n s with ⟨-, e⟩ | ⟨h20, -⟩
  · exact e
  · omega

/-- On a nibble that selects, P7 tests the length alone (R102, R170). -/
theorem acceptDoff_legal {n : Nibble} (h : 5 ≤ n.toNat) (s : State) :
    acceptDoff n s = if s.l4 + 4 * n.toNat > s.len then raiseStop .invalidOrTruncatedTcpHeader s
      else { s with wTcphl := BitVec.ofNat 6 (4 * n.toNat), phase := .p8 } := by
  rcases acceptDoff_cases n s with ⟨hbad, e⟩ | ⟨-, hfit, e⟩
  · rw [e, if_pos (by omega)]
  · rw [e, if_neg (by omega), hdrLenOf_eq_ofNat]

/-! ## The operation and the selector of its field -/

/-- Runs the selector that a field decodes to, and stops the decode with the field's reason where it decodes to none (R110,
R112). -/
def runSelector (why : StopReason) (s : State) : Decoded → Result
  | .instr i => exec i s
  | .rejected _ => .next (raiseStop why s)

/-- Such a run on the answer of a selector field's decoder. -/
theorem runSelector_ite {c : Prop} [Decidable c] (why : StopReason) (s : State) (i : Instr) (r : DecodeReject) :
    runSelector why s (if c then .instr i else .rejected r) = if c then exec i s else .next (raiseStop why s) :=
  apply_ite (runSelector why s) c _ _

section
variable {s : State} (m : Nat)

/-- P3, where ETH_TYPE holds bytes 12 and 13 of the frame (R132). -/
theorem exec_selip_eq_runSelector (hp : s.phase = .p3) (hty : s.regs.ethType = be16 s.byte 12) :
    exec .selip s = runSelector .unsupportedEtherType s (decode m (.etherTypeBytes (s.byte 12) (s.byte 13))) := by
  have hd : decode m (.etherTypeBytes (s.byte 12) (s.byte 13)) = decodeEtherType s.regs.ethType := by rw [hty]; rfl
  rw [exec_selip_next.2 ⟨hp, rfl⟩, hd, decodeEtherType, runSelector_ite]
  rcases selectIp_cases s with ⟨hne, e⟩ | ⟨heq, e⟩
  · rw [e, if_neg hne]
  · rw [e, if_pos heq, exec_ethertypeIpv4_next.2 ⟨hp, heq, rfl⟩]

/-- P4, where byte 14 lies inside the frame (R150). -/
theorem exec_decihl_eq_runSelector (hp : s.phase = .p4) (hl : 15 ≤ s.len) :
    exec .decihl s = runSelector .invalidOrTruncatedIpHeader s (decode m (.vihlByte (s.byte 14))) := by
  rw [exec_decihl_next.2 ⟨hp, hl, rfl⟩, decode_vihlByte, decodeIhl_eq, runSelector_ite]
  split_ifs with h
  · rw [exec_ihlLegal_next.2 ⟨hp, hl, rfl, rfl⟩]
  · rw [acceptIhl_illegal h]

/-- P6, where IP_PROTO holds byte 23 of the frame (R152). -/
theorem exec_seltcp_eq_runSelector (hp : s.phase = .p6) (hpr : s.regs.ipProto = s.byte 23) :
    exec .seltcp s = runSelector .unsupportedIpProtocol s (decode m (.protocolByte (s.byte 23))) := by
  have hd : decode m (.protocolByte (s.byte 23)) = decodeProtocol s.regs.ipProto := by rw [hpr]; rfl
  rw [exec_seltcp_next.2 ⟨hp, rfl⟩, hd, decodeProtocol, runSelector_ite]
  rcases selectTcp_cases s with ⟨hne, e⟩ | ⟨heq, e⟩
  · rw [e, if_neg hne]
  · rw [e, if_pos heq, exec_protocolTcp_next.2 ⟨hp, heq, rfl⟩]

/-- P7, where byte L4+12 lies inside the frame (R170). -/
theorem exec_decdoff_eq_runSelector (hp : s.phase = .p7) (hl : s.l4 + 13 ≤ s.len) :
    exec .decdoff s =
      runSelector .invalidOrTruncatedTcpHeader s (decode m (.dataOffsetByte (s.byte (s.l4 + 12)))) := by
  rw [exec_decdoff_next.2 ⟨hp, hl, rfl⟩, decode_dataOffsetByte, decodeDataOffset_eq, runSelector_ite]
  split_ifs with h
  · rw [exec_dataOffsetLegal_next.2 ⟨hp, hl, rfl, rfl⟩]
  · rw [acceptDoff_illegal h]

end

end Machine
end Sys2Proof
end

section
/-! Proofs. The obligations of spec/30_encoding.md. -/

namespace Sys2Proof.Machine

/-- Settles O5, field by field. -/
theorem selectorValuesThatLeadOn : Obligations.SelectorValuesThatLeadOn :=
  ⟨decode_etherTypeBytes_eq_instr_iff, decode_vihlByte_eq_instr_iff, decode_protocolByte_eq_instr_iff,
    decode_dataOffsetByte_eq_instr_iff⟩

/-- Settles O19: the invariant puts the tested registers at the frame's bytes, and the tested bytes inside the frame. -/
theorem parseOperationsFollowTheFramesSelectors : Obligations.ParseOperationsFollowTheFramesSelectors := by
  intro s hv
  refine ⟨fun hp => ?p3, fun hp => ?p4, fun hp => ?p6, fun hp => ?p7⟩
  case p3 =>
    obtain ⟨hr, -⟩ := (phaseInv_p3 hp).1 hv.phaseInv
    exact exec_selip_eq_runSelector s.maxFrame hp (ethType_of_record hr)
  case p4 =>
    obtain ⟨-, hfit, -⟩ := (phaseInv_p4 hp).1 hv.phaseInv
    rw [ipFits_iff] at hfit
    exact exec_decihl_eq_runSelector s.maxFrame hp (by omega)
  case p6 =>
    obtain ⟨hr, -⟩ := (phaseInv_p6 hp).1 hv.phaseInv
    exact exec_seltcp_eq_runSelector s.maxFrame hp (ipProto_of_record hr)
  case p7 =>
    obtain ⟨-, -, hip, hfit, -⟩ := (phaseInv_p7 hp).1 hv.phaseInv
    rw [tcpFits_iff] at hfit
    exact exec_decdoff_eq_runSelector s.maxFrame hp (by rw [hip.l4_eq]; omega)

/-- Settles O53: `run_submit`, and what it leaves in FB. -/
theorem submitLoadsTheFrameAndStarts : Obligations.SubmitLoadsTheFrameAndStarts :=
  fun _ rest s hf hb hs => ⟨_, run_submit hb hf hs, rfl, rfl, fun _ => submitted_byte s rest, rfl, rfl⟩

/-- Settles O18: a selector does what its operation does on the value, which has passed the operation's first test. -/
theorem selectorResults : Obligations.SelectorResults := by
  refine ⟨?ethertypeIpv4, ?ihlLegal, ?protocolTcp, ?dataOffsetLegal⟩
  case ethertypeIpv4 => exact fun s hp hty => exec_ethertypeIpv4_next.2 ⟨hp, hty, rfl⟩
  case ihlLegal =>
    intro s n hp hl hn h5
    exact exec_ihlLegal_next.2 ⟨hp, hl, (ihlOf_eq_iff _ n).2 hn, (acceptIhl_legal h5 s).symm⟩
  case protocolTcp => exact fun s hp hpr => exec_protocolTcp_next.2 ⟨hp, hpr, rfl⟩
  case dataOffsetLegal =>
    intro s n hp hl hn h5
    exact exec_dataOffsetLegal_next.2 ⟨hp, hl, (dataOffsetOf_eq_iff _ n).2 hn, (acceptDoff_legal h5 s).symm⟩

end Sys2Proof.Machine
end

section
/-! Proofs. The operations of the Ethernet layer, one equation per outcome (spec/40_ethernet_layer.md R130 to R132). -/

namespace Sys2Proof.Machine

section
variable {s : State}

/-- P1 stops on a frame below 14 bytes (R130). -/
theorem checkEth_truncated (hl : s.len < 14) : checkEth s = raiseStop .truncatedFrame s := if_pos hl

/-- P1 leads on from 14 bytes (R130). -/
theorem checkEth_fits (hl : 14 ≤ s.len) : checkEth s = { s with phase := .p2 } := if_neg (Nat.not_lt.2 hl)

/-- With MAC_ORDER at DST_FIRST the first field of the frame is the destination (R92, R131). -/
theorem putEth_dstFirst (ho : s.macOrder = .dstFirst) (x y : Mac) (ty : BitVec 16) :
    putEth x y ty s =
      { s with regs := { s.regs with ethDst := x, ethSrc := y, ethType := ty }, depth := .eth, phase := .p3 } := by
  rw [putEth, ho]; rfl

/-- With MAC_ORDER at SRC_FIRST the first field of the frame is the source (R92, R131). -/
theorem putEth_srcFirst (ho : s.macOrder = .srcFirst) (x y : Mac) (ty : BitVec 16) :
    putEth x y ty s =
      { s with regs := { s.regs with ethSrc := x, ethDst := y, ethType := ty }, depth := .eth, phase := .p3 } := by
  rw [putEth, ho]; rfl

/-- P3 stops on an ether-type that is not IPv4's, whatever LEN is (R132). -/
theorem selectIp_unsupported (ht : s.regs.ethType ≠ 0x0800) : selectIp s = raiseStop .unsupportedEtherType s := if_neg ht

/-- P3 stops on an IPv4 frame below 34 bytes (R132). -/
theorem selectIp_tooShort (ht : s.regs.ethType = 0x0800) (hl : s.len < 34) :
    selectIp s = raiseStop .invalidOrTruncatedIpHeader s :=
  (if_pos ht).trans (if_pos hl)

/-- P3 leads on for an IPv4 frame from 34 bytes (R132). -/
theorem selectIp_fits (ht : s.regs.ethType = 0x0800) (hl : 34 ≤ s.len) : selectIp s = { s with phase := .p4 } :=
  (if_pos ht).trans (if_neg (Nat.not_lt.2 hl))

end

/-- Settles O10: in P1 the instruction answers `checkEth`, by its two equations. -/
theorem chkethResult : Obligations.ChkethResult := by
  intro s hp
  refine ⟨fun hl => ?truncated, fun hl => ?fits⟩
  case truncated => exact exec_chketh_next.2 ⟨hp, (checkEth_truncated hl).symm⟩
  case fits => exact exec_chketh_next.2 ⟨hp, (checkEth_fits hl).symm⟩

/-- Settles O11: in P2 the three reads lie inside the frame and the instruction answers `putEth`, by its equation for each
MAC_ORDER. -/
theorem extethResult : Obligations.ExtethResult := by
  intro s hp hl
  refine ⟨fun ho => ?dstFirst, fun ho => ?srcFirst⟩
  case dstFirst => exact exec_exteth_next.2 ⟨hp, hl, (putEth_dstFirst ho ..).symm⟩
  case srcFirst => exact exec_exteth_next.2 ⟨hp, hl, (putEth_srcFirst ho ..).symm⟩

/-- Settles O12: in P3 the instruction answers `selectIp`, by its three equations. -/
theorem selipResult : Obligations.SelipResult := by
  intro s hp
  refine ⟨fun ht => ?unsupported, fun ht hl => ?tooShort, fun ht hl => ?fits⟩
  case unsupported => exact exec_selip_next.2 ⟨hp, (selectIp_unsupported ht).symm⟩
  case tooShort => exact exec_selip_next.2 ⟨hp, (selectIp_tooShort ht hl).symm⟩
  case fits => exact exec_selip_next.2 ⟨hp, (selectIp_fits ht hl).symm⟩

end Sys2Proof.Machine
end

section
/-! Proofs. The operations of the IPv4 layer, one equation per outcome (spec/41_ipv4_layer.md R150 to R152). -/

namespace Sys2Proof.Machine

section
variable {s : State}

/-- P4 stops on a header length below 20 bytes or past the frame (R150). -/
theorem acceptIhl_bad {n : Nibble} (hn : 4 * n.toNat < 20 ∨ 14 + 4 * n.toNat > s.len) :
    acceptIhl n s = raiseStop .invalidOrTruncatedIpHeader s := by
  rcases acceptIhl_cases n s with ⟨-, e⟩ | ⟨h20, hfit, -⟩
  · exact e
  · omega

/-- P4 leads on for a header length of at least 20 bytes inside the frame, and records it (R150). -/
theorem acceptIhl_ok {n : Nibble} (h20 : 20 ≤ 4 * n.toNat) (hfit : 14 + 4 * n.toNat ≤ s.len) :
    acceptIhl n s = { s with wIphl := BitVec.ofNat 6 (4 * n.toNat), phase := .p5 } := by
  rw [acceptIhl_legal (by omega), if_neg (by omega)]

/-- P6 stops on a protocol that is not TCP, whatever LEN is (R152). -/
theorem selectTcp_unsupported (hpr : s.regs.ipProto ≠ 6) : selectTcp s = raiseStop .unsupportedIpProtocol s :=
  if_neg hpr

/-- P6 stops on a TCP frame with fewer than 20 bytes after the IPv4 header (R152). -/
theorem selectTcp_tooShort (hpr : s.regs.ipProto = 6) (hl : 14 + s.wIphl.toNat + 20 > s.len) :
    selectTcp s = raiseStop .invalidOrTruncatedTcpHeader s :=
  (if_pos hpr).trans (if_pos hl)

/-- P6 leads on for a TCP frame with at least 20 bytes after the IPv4 header (R152). -/
theorem selectTcp_fits (hpr : s.regs.ipProto = 6) (hl : 14 + s.wIphl.toNat + 20 ≤ s.len) :
    selectTcp s = { s with phase := .p7 } :=
  (if_pos hpr).trans (if_neg (Nat.not_lt.2 hl))

end

/-- Settles O13: in P4 the read lies inside the frame and the instruction answers `acceptIhl` on the low nibble, by its two
equations. -/
theorem decihlResult : Obligations.DecihlResult := by
  intro s hp hl
  rw [← ihlOf_toNat]
  refine ⟨fun hbad => ?bad, fun h20 hfit => ?ok⟩
  case bad => exact exec_decihl_next.2 ⟨hp, hl, (acceptIhl_bad hbad).symm⟩
  case ok => exact exec_decihl_next.2 ⟨hp, hl, (acceptIhl_ok h20 hfit).symm⟩

/-- Settles O14: in P5 the four reads lie inside the frame and the instruction answers `putIp`. -/
theorem extipResult : Obligations.ExtipResult :=
  fun _ hp hl => exec_extip_next.2 ⟨hp, hl, rfl⟩

/-- Settles O15: in P6 the instruction answers `selectTcp`, by its three equations. -/
theorem seltcpResult : Obligations.SeltcpResult := by
  intro s hp
  refine ⟨fun hpr => ?unsupported, fun hpr hl => ?tooShort, fun hpr hl => ?fits⟩
  case unsupported => exact exec_seltcp_next.2 ⟨hp, (selectTcp_unsupported hpr).symm⟩
  case tooShort => exact exec_seltcp_next.2 ⟨hp, (selectTcp_tooShort hpr hl).symm⟩
  case fits => exact exec_seltcp_next.2 ⟨hp, (selectTcp_fits hpr hl).symm⟩

end Sys2Proof.Machine
end

section
/-! Proofs. The operations of the TCP layer, one equation per outcome (spec/42_tcp_layer.md R170, R171). -/

namespace Sys2Proof.Machine

section
variable {s : State}

/-- P7 stops on a header length below 20 bytes or past the frame (R170). -/
theorem acceptDoff_bad {n : Nibble} (hn : 4 * n.toNat < 20 ∨ s.l4 + 4 * n.toNat > s.len) :
    acceptDoff n s = raiseStop .invalidOrTruncatedTcpHeader s := by
  rcases acceptDoff_cases n s with ⟨-, e⟩ | ⟨h20, hfit, -⟩
  · exact e
  · omega

/-- P7 leads on for a header length of at least 20 bytes inside the frame, and records it (R170). -/
theorem acceptDoff_ok {n : Nibble} (h20 : 20 ≤ 4 * n.toNat) (hfit : s.l4 + 4 * n.toNat ≤ s.len) :
    acceptDoff n s = { s with wTcphl := BitVec.ofNat 6 (4 * n.toNat), phase := .p8 } := by
  rw [acceptDoff_legal (by omega), if_neg (by omega)]

/-- Bits 5 to 2 of a header length are a quarter of it (R171). -/
theorem doffOfHdrLen_eq_ofNat (w : HdrLen) : doffOfHdrLen w = BitVec.ofNat 4 (w.toNat / 4) :=
  congrArg (BitVec.ofNat 4) (Nat.shiftRight_eq_div_pow w.toNat 2)

/-- What P8 writes, with TCP_DOFF as a number (R171). -/
theorem putTcp_eq (p q : BitVec 16) (x y : BitVec 32) :
    putTcp p q x y s =
      { s with
        regs := { s.regs with
          tcpSport := p, tcpDport := q, tcpSeq := x, tcpAck := y, tcpDoff := BitVec.ofNat 4 (s.wTcphl.toNat / 4)
          payOff := s.l4 + s.wTcphl.toNat, payLen := s.len - (s.l4 + s.wTcphl.toNat) }
        depth := .ethIpTcp, stopReason := .none, phase := .done } := by
  rw [putTcp, doffOfHdrLen_eq_ofNat]

end

/-- Settles O16: in P7 the read lies inside the frame and the instruction answers `acceptDoff` on the high nibble, by its two
equations. -/
theorem decdoffResult : Obligations.DecdoffResult := by
  intro s hp hl l4
  rw [← dataOffsetOf_toNat]
  refine ⟨fun hbad => ?bad, fun h20 hfit => ?ok⟩
  case bad => exact exec_decdoff_next.2 ⟨hp, hl, (acceptDoff_bad hbad).symm⟩
  case ok => exact exec_decdoff_next.2 ⟨hp, hl, (acceptDoff_ok h20 hfit).symm⟩

/-- Settles O17: in P8 the four reads lie in the first 12 of the 20 bytes from L4, and the instruction answers `putTcp`. -/
theorem exttcpResult : Obligations.ExttcpResult := by
  intro s hp h20 _
  have hreads : s.l4 + 12 ≤ s.len := (Nat.add_le_add_left (by decide) s.l4).trans h20
  exact exec_exttcp_next.2 ⟨hp, hreads, (putTcp_eq ..).symm⟩

end Sys2Proof.Machine
end

section
/-! Proofs. The host commands: what each is refused for, which registers they leave, and the engine's turn when the host does
nothing (spec/43_host_commands.md R190 to R196). -/

namespace Sys2Proof.Machine

/-! ## Refusals (U1, U2, U3, U7, U8) -/

section
variable {s : State}

theorem exec_hload_of_busy (hb : s.busy = true) (a : Nat) (b : Byte) : exec (.hload a b) s = .refused .hloadWhileBusy :=
  if_pos hb

theorem exec_hload_absent (hb : s.busy = false) {a : Nat} (ha : s.maxFrame ≤ a) (b : Byte) :
    exec (.hload a b) s = .refused (.noSuchByte a) := by
  rw [exec, execHload, hb, if_neg Bool.false_ne_true, if_neg (Nat.not_lt.2 ha)]

theorem exec_hsetlen_of_busy (hb : s.busy = true) (n : Nat) : exec (.hsetlen n) s = .refused .hsetlenWhileBusy :=
  if_pos hb

theorem exec_hsetlen_tooLong (hb : s.busy = false) {n : Nat} (hn : 2 ^ s.lenW ≤ n) :
    exec (.hsetlen n) s = .refused (.lengthNotRepresentable n) := by
  rw [exec, execHsetlen, hb, if_neg Bool.false_ne_true, if_neg (Nat.not_lt.2 hn)]

theorem exec_hstart_of_busy (hb : s.busy = true) : exec .hstart s = .refused .hstartWhileBusy :=
  if_pos hb

theorem exec_hstart_tooLong (hb : s.busy = false) (hl : s.maxFrame < s.len) :
    exec .hstart s = .refused .frameLenExceedsMax := by
  rw [exec, execHstart, hb, if_neg Bool.false_ne_true, if_neg (Nat.not_le.2 hl)]

theorem exec_hreadfb_absent {a : Nat} (ha : s.maxFrame ≤ a) : exec (.hreadfb a) s = .refused (.noSuchByte a) :=
  if_neg (Nat.not_lt.2 ha)

end

/-! ## PHASE and the results -/

/-- STATUS after a reset (R190). -/
@[simp] theorem resetEngine_status (s : State) : (resetEngine s).status = 0 := (rfl : State.reset.status = 0)

/-- FLAGS after a reset (R190). -/
@[simp] theorem resetEngine_flags (s : State) : (resetEngine s).flags = 0 := (rfl : State.reset.flags = 0)

/-- A host command leaves PHASE and the record of the decode, but for HSTART and HRESET (R191, R194, R215). -/
theorem exec_hostCommand_cases {i : Instr} {s t : State} (hi : phaseOf i = none) (h : exec i s = .next t) :
    (t.phase = s.phase ∧ t.record = s.record) ∨ (i = .hstart ∧ s.busy = false ∧ t.phase = .p1) ∨
      (i = .hreset ∧ t.phase = .idle) := by
  cases i with
  | hreset => obtain rfl := exec_hreset_next.1 h; exact .inr (.inr ⟨rfl, rfl⟩)
  | hstart => obtain ⟨hb, -, rfl⟩ := exec_hstart_next.1 h; exact .inr (.inl ⟨rfl, hb, rfl⟩)
  | hload a b => obtain ⟨-, -, rfl⟩ := exec_hload_next.1 h; exact .inl ⟨rfl, rfl⟩
  | hsetlen n => obtain ⟨-, -, rfl⟩ := exec_hsetlen_next.1 h; exact .inl ⟨rfl, rfl⟩
  | hread r => obtain ⟨v, n, rfl⟩ := exec_hread_next h; exact .inl ⟨rfl, rfl⟩
  | hreadfb a => obtain ⟨-, rfl⟩ := exec_hreadfb_next.1 h; exact .inl ⟨rfl, rfl⟩
  | _ => cases hi

/-! ## The engine's turn -/

/-- In IDLE and DONE the engine has no step (R196, R302). -/
theorem fetchEngine_of_not_busy {s : State} (hb : s.busy = false) : fetchEngine s = .stop .noEnabledStep := by
  have hcode : s.phase.code = 0 ∨ 9 ≤ s.phase.code.toNat := by
    rcases (busy_eq_false_iff s).1 hb with hp | hp <;> rw [hp]
    · exact .inl rfl
    · exact .inr (by decide)
  rw [fetchEngine, decode_phase_absent _ hcode]

end Sys2Proof.Machine
end

section
/-! Proofs. What a step of the engine makes of two states with the same engine (spec/43_host_commands.md R194 to R196): an
operation sees and writes nothing but what `SameEngine` compares. -/

namespace Sys2Proof.Machine

/-- The values returned to the host are no part of the engine (R20). -/
theorem sameEngine_replies (s : State) (v : List Nat) (n : Nat) : SameEngine s { s with replies := v, draws := n } :=
  ⟨rfl, rfl, rfl, rfl, rfl, rfl, rfl, rfl⟩

/-- Two tests that agree choose the same engine where their branches do. -/
theorem SameEngine.ite_congr {c d : Prop} [Decidable c] [Decidable d] {s s' t t' : State} (hcd : c ↔ d)
    (hs : SameEngine s t) (hs' : SameEngine s' t') : SameEngine (if c then s else s') (if d then t else t') := by
  by_cases hd : d
  · rwa [if_pos (hcd.2 hd), if_pos hd]
  · rwa [if_neg (mt hcd.1 hd), if_neg hd]

section
variable {s t : State} (h : SameEngine s t)
include h

/-! ## The operands -/

theorem SameEngine.len_eq : s.len = t.len := h.frameLen

theorem SameEngine.l4_eq : s.l4 = t.l4 := by rw [State.l4, State.l4, h.wIphl]

theorem SameEngine.regs_eq : s.regs = t.regs := congrArg (·.regs) h.record

theorem SameEngine.stopReason_eq : s.stopReason = t.stopReason := congrArg (·.stopReason) h.record

/-! ## What the operations write -/

theorem SameEngine.phase_congr (p : Phase) : SameEngine { s with phase := p } { t with phase := p } :=
  { h with phase := rfl }

theorem SameEngine.raiseStop_congr (r : StopReason) : SameEngine (raiseStop r s) (raiseStop r t) :=
  { h with
    phase := rfl
    record := by rw [raiseStop_record, raiseStop_record, h.record] }

theorem SameEngine.putEth_congr (x y : Mac) (ty : BitVec 16) : SameEngine (putEth x y ty s) (putEth x y ty t) :=
  { h with
    phase := rfl
    record := by
      simp only [State.record, putEth_depth, putEth_stopReason, putEth_regs, h.stopReason_eq, h.regs_eq, h.macOrder] }

theorem SameEngine.putIp_congr (v p : Byte) (x y : BitVec 32) : SameEngine (putIp v p x y s) (putIp v p x y t) :=
  { h with
    phase := rfl
    record := by
      simp only [State.record, putIp_depth, putIp_stopReason, putIp_regs, h.stopReason_eq, h.regs_eq, h.wIphl] }

theorem SameEngine.putTcp_congr (p q : BitVec 16) (x y : BitVec 32) : SameEngine (putTcp p q x y s) (putTcp p q x y t) :=
  { h with
    phase := rfl
    record := by
      simp only [State.record, putTcp_depth, putTcp_stopReason, putTcp_regs, h.regs_eq, h.wTcphl, h.l4_eq, h.len_eq] }

/-! ## What the operations decide -/

theorem SameEngine.checkEth_congr : SameEngine (checkEth s) (checkEth t) :=
  .ite_congr (by rw [h.len_eq]) (h.raiseStop_congr _) (h.phase_congr _)

theorem SameEngine.acceptIpv4_congr : SameEngine (acceptIpv4 s) (acceptIpv4 t) :=
  .ite_congr (by rw [h.len_eq]) (h.raiseStop_congr _) (h.phase_congr _)

theorem SameEngine.selectIp_congr : SameEngine (selectIp s) (selectIp t) :=
  .ite_congr (by rw [h.regs_eq]) h.acceptIpv4_congr (h.raiseStop_congr _)

theorem SameEngine.acceptIhl_congr (n : Nibble) : SameEngine (acceptIhl n s) (acceptIhl n t) :=
  .ite_congr Iff.rfl (h.raiseStop_congr _)
    (.ite_congr (by rw [h.len_eq]) (h.raiseStop_congr _) { h with wIphl := rfl, phase := rfl })

theorem SameEngine.acceptTcp_congr : SameEngine (acceptTcp s) (acceptTcp t) :=
  .ite_congr (by rw [h.l4_eq, h.len_eq]) (h.raiseStop_congr _) (h.phase_congr _)

theorem SameEngine.selectTcp_congr : SameEngine (selectTcp s) (selectTcp t) :=
  .ite_congr (by rw [h.regs_eq]) h.acceptTcp_congr (h.raiseStop_congr _)

theorem SameEngine.acceptDoff_congr (n : Nibble) : SameEngine (acceptDoff n s) (acceptDoff n t) :=
  .ite_congr Iff.rfl (h.raiseStop_congr _)
    (.ite_congr (by rw [h.l4_eq, h.len_eq]) (h.raiseStop_congr _) { h with wTcphl := rfl, phase := rfl })

/-- From the same engine a parse operation or selector leads to the same engine (R196). -/
theorem SameEngine.exec_congr {i : Instr} {s' : State} (hi : phaseOf i ≠ none) (he : exec i s = .next s') :
    ∃ t', exec i t = .next t' ∧ SameEngine s' t' := by
  cases i with
  | hreset | hload | hsetlen | hstart | hread | hreadfb => exact absurd rfl hi
  | chketh =>
    rw [exec_chketh_next, h.phase] at he
    obtain ⟨hp, rfl⟩ := he
    exact ⟨_, exec_chketh_next.2 ⟨hp, rfl⟩, h.checkEth_congr⟩
  | exteth =>
    rw [exec_exteth_next, h.phase, h.len_eq, h.byte] at he
    obtain ⟨hp, hl, rfl⟩ := he
    exact ⟨_, exec_exteth_next.2 ⟨hp, hl, rfl⟩, h.putEth_congr _ _ _⟩
  | selip =>
    rw [exec_selip_next, h.phase] at he
    obtain ⟨hp, rfl⟩ := he
    exact ⟨_, exec_selip_next.2 ⟨hp, rfl⟩, h.selectIp_congr⟩
  | ethertypeIpv4 =>
    rw [exec_ethertypeIpv4_next, h.phase, h.regs_eq] at he
    obtain ⟨hp, ht, rfl⟩ := he
    exact ⟨_, exec_ethertypeIpv4_next.2 ⟨hp, ht, rfl⟩, h.acceptIpv4_congr⟩
  | decihl =>
    rw [exec_decihl_next, h.phase, h.len_eq, h.byte] at he
    obtain ⟨hp, hl, rfl⟩ := he
    exact ⟨_, exec_decihl_next.2 ⟨hp, hl, rfl⟩, h.acceptIhl_congr _⟩
  | ihlLegal n =>
    rw [exec_ihlLegal_next, h.phase, h.len_eq, h.byte] at he
    obtain ⟨hp, hl, hn, rfl⟩ := he
    exact ⟨_, exec_ihlLegal_next.2 ⟨hp, hl, hn, rfl⟩, h.acceptIhl_congr n⟩
  | extip =>
    rw [exec_extip_next, h.phase, h.len_eq, h.byte] at he
    obtain ⟨hp, hl, rfl⟩ := he
    exact ⟨_, exec_extip_next.2 ⟨hp, hl, rfl⟩, h.putIp_congr _ _ _ _⟩
  | seltcp =>
    rw [exec_seltcp_next, h.phase] at he
    obtain ⟨hp, rfl⟩ := he
    exact ⟨_, exec_seltcp_next.2 ⟨hp, rfl⟩, h.selectTcp_congr⟩
  | protocolTcp =>
    rw [exec_protocolTcp_next, h.phase, h.regs_eq] at he
    obtain ⟨hp, ht, rfl⟩ := he
    exact ⟨_, exec_protocolTcp_next.2 ⟨hp, ht, rfl⟩, h.acceptTcp_congr⟩
  | decdoff =>
    rw [exec_decdoff_next, h.phase, h.len_eq, h.l4_eq, h.byte] at he
    obtain ⟨hp, hl, rfl⟩ := he
    exact ⟨_, exec_decdoff_next.2 ⟨hp, hl, rfl⟩, h.acceptDoff_congr _⟩
  | dataOffsetLegal n =>
    rw [exec_dataOffsetLegal_next, h.phase, h.len_eq, h.l4_eq, h.byte] at he
    obtain ⟨hp, hl, hn, rfl⟩ := he
    exact ⟨_, exec_dataOffsetLegal_next.2 ⟨hp, hl, hn, rfl⟩, h.acceptDoff_congr n⟩
  | exttcp =>
    rw [exec_exttcp_next, h.phase, h.len_eq, h.l4_eq, h.byte] at he
    obtain ⟨hp, hl, rfl⟩ := he
    exact ⟨_, exec_exttcp_next.2 ⟨hp, hl, rfl⟩, h.putTcp_congr _ _ _ _⟩

end

end Sys2Proof.Machine
end

section
/-! Proofs. The obligations of spec/43_host_commands.md. -/

namespace Sys2Proof.Machine

/-- Settles O34: in DONE no parse operation or selector goes on, and of the host commands only the two named write the
record. -/
theorem resultsPersistInDone : Obligations.ResultsPersistInDone := by
  intro i s t hd h hs hz
  have hb : s.busy = false := (busy_eq_false_iff s).2 (.inr hd)
  have hi : phaseOf i = none := by
    by_contra hi
    exact Bool.false_ne_true (hb.symm.trans ((effect_of_exec h).busy hi))
  rcases exec_hostCommand_cases hi h with ⟨hp, hr⟩ | ⟨hstart, -⟩ | ⟨hreset, -⟩
  · exact ⟨hp.trans hd, hr⟩
  · exact absurd hstart hs
  · exact absurd hreset hz

/-- Settles O41, from the outcomes of the host commands; not BUSY is IDLE or DONE. -/
theorem hostCommandsMovePhaseOnlyByStartAndReset : Obligations.HostCommandsMovePhaseOnlyByStartAndReset := by
  intro i s t hi h
  rcases exec_hostCommand_cases hi h with ⟨hp, -⟩ | ⟨hstart, hb, hp⟩ | hreset
  · exact .inl hp
  · exact .inr (.inl ⟨hstart, (busy_eq_false_iff s).1 hb, hp⟩)
  · exact .inr (.inr hreset)

/-- Settles O52: a read writes the host's fields alone, and no operation sees them. -/
theorem hostReadsDoNotDisturbTheEngine : Obligations.HostReadsDoNotDisturbTheEngine := by
  refine ⟨?hread, ?hreadfb, fun _ _ _ _ hi h => h.exec_congr hi⟩
  case hread =>
    intro s t r h
    obtain ⟨v, n, rfl⟩ := exec_hread_next h
    exact sameEngine_replies s _ n
  case hreadfb =>
    intro s t a h
    obtain ⟨-, rfl⟩ := exec_hreadfb_next.1 h
    exact sameEngine_replies s _ s.draws

/-- Settles O7: with no line of the host the step is the engine's: the operation PHASE names while BUSY, and none in IDLE and
DONE. -/
theorem engineStepsExactlyWhileBusy : Obligations.EngineStepsExactlyWhileBusy := by
  intro s hs
  refine ⟨fun hb => ?busy, fun hb => step_of_stop ((fetch_nil hs).trans (fetchEngine_of_not_busy hb))⟩
  case busy =>
    obtain ⟨i, hd, hf, hi⟩ := exists_parseOp_of_busy hb
    exact ⟨i, hf, hi, step_of_run ((fetch_nil hs).trans (fetchEngine_instr hd))⟩

/-- Settles O20: the next state is `resetEngine`, field by field. -/
theorem hresetResult : Obligations.HresetResult :=
  fun s => ⟨resetEngine s, rfl, rfl, rfl, rfl, rfl, rfl, rfl, rfl, resetEngine_status s, resetEngine_flags s,
    Memory.lookup_nil, fun _ => rfl, rfl, rfl, rfl, rfl⟩

/-- Settles O21: the next state is that of MemWrite, which changes the byte it names and no other. -/
theorem hloadResult : Obligations.HloadResult := by
  intro s a b
  refine ⟨fun hb ha => ?next, fun hb => exec_hload_of_busy hb a b, fun hb ha => exec_hload_absent hb ha b⟩
  case next =>
    exact ⟨memWrite a b s, exec_hload_next.2 ⟨hb, ha, rfl⟩, memWrite_byte_same a b s,
      fun _ => memWrite_byte_other b s, rfl⟩

/-- Settles O22, outcome by outcome. -/
theorem hsetlenResult : Obligations.HsetlenResult := by
  intro s n
  refine ⟨fun hb hn => ?next, fun hb => exec_hsetlen_of_busy hb n, fun hb hn => exec_hsetlen_tooLong hb hn⟩
  case next => exact ⟨_, exec_hsetlen_next.2 ⟨hb, hn, rfl⟩, rfl, rfl⟩

/-- Settles O23, outcome by outcome; the next state is that of `beginDecode`. -/
theorem hstartResult : Obligations.HstartResult :=
  fun _ => ⟨fun hb hl => exec_hstart_next.2 ⟨hb, hl, rfl⟩, exec_hstart_of_busy, exec_hstart_tooLong⟩

/-- Settles O26, outcome by outcome. -/
theorem hreadfbResult : Obligations.HreadfbResult :=
  fun _ _ => ⟨fun ha => exec_hreadfb_next.2 ⟨ha, rfl⟩, exec_hreadfb_absent⟩

end Sys2Proof.Machine
end

section
/-! Proofs. The engine's run of a decode (spec/44_decode_function.md R211; spec/70_reset_and_hazards.md R310): PHASE counts
the operations, so a decode that ends in Pk has taken k of them, and the run leaves the record of the pure decode. -/

namespace Sys2Proof.Machine

/-- The phase in which a decode ends is the number of operations it takes (R310). -/
theorem Effect.decodeOps_of_done {i : Instr} {s t : State} (h : Effect i s t) (hv : PhaseInv s) (hi : phaseOf i ≠ none)
    (hd : t.phase = .done) : decodeOps s.byte s.len = s.phase.code.toNat := by
  cases h with
  | truncated hp hl => rw [hp, decodeOps_short hl]; rfl
  | unsupportedEtherType hp ht =>
    obtain ⟨hr, hf, -⟩ := (phaseInv_p3 hp).1 hv
    rw [ethType_of_record hr] at ht
    rw [hp, decodeOps_p3 hf (.inl ht)]; rfl
  | ipTooShort _ hp _ hl =>
    obtain ⟨-, hf, -⟩ := (phaseInv_p3 hp).1 hv
    rw [hp, decodeOps_p3 hf (.inr hl)]; rfl
  | ipHdrBad _ hp hl =>
    obtain ⟨-, ⟨hty, hf⟩, -⟩ := (phaseInv_p4 hp).1 hv
    rw [hp, decodeOps_p4 hty hf hl]; rfl
  | unsupportedIpProtocol hp ht =>
    obtain ⟨hr, ⟨hty, hf⟩, ⟨h20, hl, -⟩, -⟩ := (phaseInv_p6 hp).1 hv
    rw [ipProto_of_record hr] at ht
    rw [hp, decodeOps_p6 hty hf h20 hl (.inl ht)]; rfl
  | tcpTooShort _ hp _ hl =>
    obtain ⟨-, ⟨hty, hf⟩, ⟨h20, hl4, hw⟩, -⟩ := (phaseInv_p6 hp).1 hv
    rw [hw] at hl
    rw [hp, decodeOps_p6 hty hf h20 hl4 (.inr hl)]; rfl
  | tcpHdrBad _ hp hl =>
    obtain ⟨-, ⟨hty, hf⟩, hip, ⟨hpr, hm⟩, -⟩ := (phaseInv_p7 hp).1 hv
    have ⟨h20, _⟩ := hip
    rw [← hip.tcpHdrLen_eq, hip.l4_eq] at hl
    rw [hp, decodeOps_p7 hty hf h20 hpr hm hl]; rfl
  | extractTcp hp =>
    obtain ⟨-, ⟨hty, hf⟩, ⟨h20, -⟩, ⟨hpr, hm⟩, ht20, hl, -⟩ := (phaseInv_p8 hp).1 hv
    rw [hp, decodeOps_p8 hty hf h20 hpr hm ht20 hl]; rfl
  | ethFits | extractEth | ipFits | ipHdrOk | extractIp | tcpFits | tcpHdrOk => cases hd
  | reset | load | setLen | start | readReg | readFb => exact absurd rfl hi

/-- With no line of the host, a step while BUSY is the operation PHASE names, and goes on (R196). -/
theorem PhaseInv.exists_step_effect {s : State} (hv : PhaseInv s) (hb : s.busy = true) (hs : s.script = []) :
    ∃ i t, step s = .next t ∧ phaseOf i ≠ none ∧ Effect i s t := by
  obtain ⟨i, t, hd, hi, he⟩ := hv.exists_engine_step hb
  exact ⟨i, t, (step_of_run ((fetch_nil hs).trans (fetchEngine_instr hd))).trans he, hi, effect_of_exec he⟩

/-- The run from s ends its decode in t after n operations and is BUSY before that; it leaves the record of `decode` and
keeps the frame. -/
structure DecodeRun (n : Nat) (s t : State) : Prop where
  runs : Sys2Proof.core.run n s = .next t
  done : t.phase = .done
  record : t.record = decodeFrame s.macOrder s.byte s.len
  byte : t.byte = s.byte
  frameLen : t.frameLen = s.frameLen
  busyBefore : ∀ k, k < n → ∃ u, Sys2Proof.core.run k s = .next u ∧ u.busy = true

section
variable {i : Instr} {n : Nat} {s t u : State}

/-- The last operation of a decode. -/
theorem DecodeRun.last (hstep : step s = .next t) (h : Effect i s t) (hi : phaseOf i ≠ none) (hv : PhaseInv s)
    (hb : s.busy = true) (hd : t.phase = .done) : DecodeRun 1 s t where
  runs := run_succ_of_step hstep
  done := hd
  record := h.record_of_done hv hi hd
  byte := (h.frame_eq hi).1
  frameLen := (h.frame_eq hi).2
  busyBefore k hk := by
    obtain rfl : k = 0 := by omega
    exact ⟨s, rfl, hb⟩

/-- One operation before the rest of a decode. -/
theorem DecodeRun.step_before (hstep : step s = .next t) (h : Effect i s t) (hi : phaseOf i ≠ none) (hb : s.busy = true)
    (hrest : DecodeRun n t u) : DecodeRun (n + 1) s u where
  runs := (run_succ_of_step hstep).trans hrest.runs
  done := hrest.done
  record := by rw [hrest.record, h.macOrder_eq, (h.frame_eq hi).1, (h.frame_eq hi).2]
  byte := hrest.byte.trans (h.frame_eq hi).1
  frameLen := hrest.frameLen.trans (h.frame_eq hi).2
  busyBefore k hk := by
    cases k with
    | zero => exact ⟨s, rfl, hb⟩
    | succ k =>
      obtain ⟨v, hrun, hv⟩ := hrest.busyBefore k (by omega)
      exact ⟨v, (run_succ_of_step hstep).trans hrun, hv⟩

end

/-- From any phase Pk of a decode the run ends after the operations from Pk to the last one of the table (R211, R310). -/
theorem exists_decodeRun {s : State} (hb : s.busy = true) (hv : PhaseInv s) (hs : s.script = []) :
    ∃ n t, s.phase.code.toNat + n = decodeOps s.byte s.len + 1 ∧ DecodeRun n s t := by
  obtain ⟨i, t, hstep, hi, he⟩ := hv.exists_step_effect hb hs
  by_cases hd : t.phase = .done
  · exact ⟨1, t, by rw [he.decodeOps_of_done hv hi hd], .last hstep he hi hv hb hd⟩
  · have hnext : t.phase.code.toNat = s.phase.code.toNat + 1 :=
      (code_of_mem_parseGraph _ (he.mem_parseGraph hi)).resolve_right hd
    have hlt := t.phase.code.isLt
    obtain ⟨n, u, hn, hrest⟩ := exists_decodeRun (he.busy_of_ne_done hi hd) (he.phaseInv_of_ne_done hv hi hd)
      ((he.host_eq hi).1.trans hs)
    rw [(he.frame_eq hi).1, (he.frame_eq hi).2] at hn
    exact ⟨n + 1, u, by omega, .step_before hstep he hi hb hrest⟩
termination_by 16 - s.phase.code.toNat

/-- HSTART begins a run of the table's number of operations. -/
theorem exists_decodeRun_beginDecode {s : State} (hs : s.script = []) :
    ∃ t, DecodeRun (decodeOps s.byte s.len) (beginDecode s) t := by
  have hv : PhaseInv (beginDecode s) := (phaseInv_p1 rfl).2 ⟨rfl, rfl, rfl⟩
  obtain ⟨n, t, hn, hrun⟩ := exists_decodeRun (s := beginDecode s) rfl hv hs
  have hops : n = decodeOps s.byte s.len := Nat.add_left_cancel (hn.trans (Nat.add_comm _ 1))
  exact ⟨t, hops ▸ hrun⟩

end Sys2Proof.Machine
end

section
/-! Proofs. The condition under which a decode ends with each STOP_REASON, and the record it then leaves
(spec/44_decode_function.md R228, R229, R230). -/

namespace Sys2Proof.Machine

/-! ## The frame's fields as numbers -/

/-- The ether-type read as a number selects IPv4 at 0x0800 (R93). -/
theorem be16_eq_ipv4_iff (fb : Nat → Byte) (a : Nat) :
    be16 fb a = 0x0800 ↔ (fb a).toNat * 256 + (fb (a + 1)).toNat = 0x0800 := by
  rw [← be16_toNat, ← BitVec.toNat_inj]; rfl

/-- The IPv4 header length by the low nibble of byte 14 (R96, R97). -/
theorem ipHdrLen_eq_nibble (fb : Nat → Byte) : ipHdrLen fb = 4 * ((fb 14).toNat % 16) := by
  rw [ipHdrLen_eq, hdrLenOf_toNat, ihlOf_toNat]

/-- The TCP header length by the high nibble of byte L4+12 (R101, R102). -/
theorem tcpHdrLen_eq_nibble (fb : Nat → Byte) :
    tcpHdrLen fb = 4 * ((fb (14 + ipHdrLen fb + 12)).toNat / 16) := by
  rw [tcpHdrLen_eq, hdrLenOf_toNat, dataOffsetOf_toNat]

theorem ipValid_iff {fb : Nat → Byte} {len : Nat} :
    IpValid fb len ↔ 34 ≤ len ∧ be16 fb 12 = 0x0800 ∧ 20 ≤ ipHdrLen fb ∧ 14 + ipHdrLen fb ≤ len :=
  ⟨fun ⟨ht, hl, h20, hf⟩ => ⟨hl, ht, h20, hf⟩, fun ⟨hl, ht, h20, hf⟩ => ⟨ht, hl, h20, hf⟩⟩

/-- A valid TCP header has its minimum length inside the frame, which P6 tests first. -/
theorem tcpValid_iff {fb : Nat → Byte} {len : Nat} :
    TcpValid fb len ↔ fb 23 = 6 ∧ 14 + ipHdrLen fb + 20 ≤ len ∧ 20 ≤ tcpHdrLen fb ∧
      14 + ipHdrLen fb + tcpHdrLen fb ≤ len :=
  ⟨fun ⟨hp, h20, hf⟩ => ⟨hp, by omega, h20, hf⟩, fun ⟨hp, _, h20, hf⟩ => ⟨hp, h20, hf⟩⟩

/-! ## Reason by reason -/

/-- The condition R230 gives to each STOP_REASON; that of NONE is the condition of DEPTH ETH_IP_TCP (R229). -/
def StopCondition (fb : Nat → Byte) (len : Nat) : StopReason → Prop
  | .none => IpValid fb len ∧ TcpValid fb len
  | .truncatedFrame => len < 14
  | .unsupportedEtherType => 14 ≤ len ∧ be16 fb 12 ≠ 0x0800
  | .invalidOrTruncatedIpHeader =>
    14 ≤ len ∧ be16 fb 12 = 0x0800 ∧ (len < 34 ∨ ipHdrLen fb < 20 ∨ 14 + ipHdrLen fb > len)
  | .unsupportedIpProtocol => IpValid fb len ∧ fb 23 ≠ 6
  | .invalidOrTruncatedTcpHeader =>
    IpValid fb len ∧ fb 23 = 6 ∧
      (14 + ipHdrLen fb + 20 > len ∨ tcpHdrLen fb < 20 ∨ 14 + ipHdrLen fb + tcpHdrLen fb > len)

/-- The record a decode that ends with the given STOP_REASON leaves (R210). -/
def recordOfStop (o : Config.MacOrder) (fb : Nat → Byte) (len : Nat) : StopReason → DecodeRecord
  | .none => recordTcp o fb len
  | .truncatedFrame => DecodeRecord.start.stoppedBy .truncatedFrame
  | .unsupportedEtherType => (recordEth o fb).stoppedBy .unsupportedEtherType
  | .invalidOrTruncatedIpHeader => (recordEth o fb).stoppedBy .invalidOrTruncatedIpHeader
  | .unsupportedIpProtocol => (recordIp o fb).stoppedBy .unsupportedIpProtocol
  | .invalidOrTruncatedTcpHeader => (recordIp o fb).stoppedBy .invalidOrTruncatedTcpHeader

/-- The DEPTH at which a decode ends with the given STOP_REASON (R229, R230). -/
def depthOfStop : StopReason → Depth
  | .none => .ethIpTcp
  | .truncatedFrame => .none
  | .unsupportedEtherType | .invalidOrTruncatedIpHeader => .eth
  | .unsupportedIpProtocol | .invalidOrTruncatedTcpHeader => .ethIp

section
variable {o : Config.MacOrder} {fb : Nat → Byte} {len : Nat} {why : StopReason}

@[simp] theorem recordOfStop_stopReason : (recordOfStop o fb len why).stopReason = why := by cases why <;> rfl

@[simp] theorem recordOfStop_depth : (recordOfStop o fb len why).depth = depthOfStop why := by cases why <;> rfl

/-- A frame that meets the condition of a reason is decoded to that reason's record. -/
theorem StopCondition.decodeFrame_eq (h : StopCondition fb len why) :
    decodeFrame o fb len = recordOfStop o fb len why := by
  cases why with
  | none =>
    obtain ⟨⟨ht, hl, h20, hf⟩, hp, ht20, htf⟩ := h
    exact decodeFrame_full ht hl h20 hp (by omega) ht20 htf
  | truncatedFrame => exact decodeFrame_short h
  | unsupportedEtherType => exact decodeFrame_otherType h.1 h.2
  | invalidOrTruncatedIpHeader =>
    obtain ⟨hl, ht, hb⟩ := h
    by_cases hm : len < 34
    · exact decodeFrame_noIpHeader hl ht hm
    · exact decodeFrame_badIpHeader ht (by omega) (by omega)
  | unsupportedIpProtocol =>
    obtain ⟨⟨ht, hl, h20, hf⟩, hp⟩ := h
    exact decodeFrame_otherProtocol ht hl h20 hf hp
  | invalidOrTruncatedTcpHeader =>
    obtain ⟨⟨ht, hl, h20, hf⟩, hp, hb⟩ := h
    by_cases hm : 14 + ipHdrLen fb + 20 > len
    · exact decodeFrame_noTcpHeader ht hl h20 hf hp hm
    · exact decodeFrame_badTcpHeader ht hl h20 hp (by omega) (by omega)

/-- Every frame meets the condition of some reason, test by test in the order of R210. -/
theorem exists_stopCondition (fb : Nat → Byte) (len : Nat) : ∃ why, StopCondition fb len why := by
  by_cases hl : len < 14
  · exact ⟨.truncatedFrame, hl⟩
  by_cases ht : be16 fb 12 = 0x0800
  case neg => exact ⟨.unsupportedEtherType, by omega, ht⟩
  by_cases hb : len < 34 ∨ ipHdrLen fb < 20 ∨ 14 + ipHdrLen fb > len
  · exact ⟨.invalidOrTruncatedIpHeader, by omega, ht, hb⟩
  have hi : IpValid fb len := ⟨ht, by omega, by omega, by omega⟩
  by_cases hp : fb 23 = 6
  case neg => exact ⟨.unsupportedIpProtocol, hi, hp⟩
  by_cases hd : 14 + ipHdrLen fb + 20 > len ∨ tcpHdrLen fb < 20 ∨ 14 + ipHdrLen fb + tcpHdrLen fb > len
  · exact ⟨.invalidOrTruncatedTcpHeader, hi, hp, hd⟩
  · exact ⟨.none, hi, hp, by omega, by omega⟩

/-- A decode ends with a reason exactly under its condition (R230). -/
theorem decodeFrame_stopReason_eq_iff : (decodeFrame o fb len).stopReason = why ↔ StopCondition fb len why := by
  constructor
  · rintro rfl
    obtain ⟨w, hw⟩ := exists_stopCondition fb len
    rwa [hw.decodeFrame_eq, recordOfStop_stopReason]
  · intro h
    rw [h.decodeFrame_eq, recordOfStop_stopReason]

end

/-- The STOP_REASON codes differ (R34). -/
theorem StopReason.code_toNat_inj {v w : StopReason} : v.code.toNat = w.code.toNat ↔ v = w := by
  cases v <;> cases w <;> decide

/-- The same by the reason's code (R34, R230). -/
theorem decodeFrame_stopReason_code_iff (o : Config.MacOrder) (fb : Nat → Byte) (len : Nat) (why : StopReason) :
    (decodeFrame o fb len).stopReason.code.toNat = why.code.toNat ↔ StopCondition fb len why :=
  StopReason.code_toNat_inj.trans decodeFrame_stopReason_eq_iff

/-! ## The depths -/

/-- DEPTH is NONE exactly where it counts no layer (R33). -/
theorem Depth.eq_none_iff (d : Depth) : d = .none ↔ ¬ 1 ≤ d.code.toNat := by cases d <;> decide

section
variable (o : Config.MacOrder) (fb : Nat → Byte) (len : Nat)

/-- A decode reaches the Ethernet layer where its header fits (R229). -/
theorem decodeFrame_one_le_depth_iff : 1 ≤ (decodeFrame o fb len).depth.code.toNat ↔ 14 ≤ len := by
  obtain ⟨why, h⟩ := exists_stopCondition fb len
  rw [h.decodeFrame_eq, recordOfStop_depth]
  cases why with
  | truncatedFrame => exact iff_of_false (by decide) (Nat.not_le.2 h)
  | unsupportedEtherType | invalidOrTruncatedIpHeader => exact iff_of_true (by decide) h.1
  | none | unsupportedIpProtocol | invalidOrTruncatedTcpHeader =>
    exact iff_of_true (by decide) (Nat.le_trans (by decide) h.1.minLen)

/-- A decode reaches the IPv4 layer where its header is valid (R229). -/
theorem decodeFrame_two_le_depth_iff : 2 ≤ (decodeFrame o fb len).depth.code.toNat ↔ IpValid fb len := by
  obtain ⟨why, h⟩ := exists_stopCondition fb len
  rw [h.decodeFrame_eq, recordOfStop_depth]
  cases why with
  | truncatedFrame =>
    exact iff_of_false (by decide) fun hi => absurd hi.minLen (Nat.not_le.2 (Nat.lt_trans h (by decide)))
  | unsupportedEtherType => exact iff_of_false (by decide) fun hi => h.2 hi.etherType
  | invalidOrTruncatedIpHeader =>
    obtain ⟨-, -, hb⟩ := h
    exact iff_of_false (by decide) fun ⟨_, hl, h20, hf⟩ => by omega
  | none | unsupportedIpProtocol | invalidOrTruncatedTcpHeader => exact iff_of_true (by decide) h.1

/-- DEPTH is ETH_IP_TCP exactly where no reason stops the decode (R25). -/
theorem decodeFrame_depth_eq_ethIpTcp_iff :
    (decodeFrame o fb len).depth = .ethIpTcp ↔ (decodeFrame o fb len).stopReason = .none := by
  obtain ⟨why, h⟩ := exists_stopCondition fb len
  rw [h.decodeFrame_eq, recordOfStop_depth, recordOfStop_stopReason]
  cases why <;> decide

end

end Sys2Proof.Machine
end

section
/-! Proofs. The obligations of spec/44_decode_function.md. -/

namespace Sys2Proof.Machine

/-- Settles O45: HSTART begins the run, which ends after the operations of R310 with the record of `decode`. -/
theorem stepsAgreeWithDecode : Obligations.StepsAgreeWithDecode := by
  intro s hb hl hs
  obtain ⟨t, hrun⟩ := exists_decodeRun_beginDecode hs
  have hstart : exec .hstart s = .next (beginDecode s) := exec_hstart_next.2 ⟨hb, hl, rfl⟩
  exact ⟨_, t, hstart, hrun.runs, hrun.done, hrun.record, hrun.byte, hrun.frameLen⟩

/-- Settles O46: the run of a decode is BUSY until its last operation. -/
theorem decodesTakeTheTablesOperations : Obligations.DecodesTakeTheTablesOperations := by
  intro s _ _ hs
  obtain ⟨hlow, hhigh⟩ := decodeOps_bounds s.byte s.len
  obtain ⟨t, hrun⟩ := exists_decodeRun_beginDecode hs
  exact ⟨hlow, hhigh, ⟨t, hrun.runs, hrun.done⟩, hrun.busyBefore⟩

/-- Settles O48: the premises of each property are those of one way a decode ends, whose record is known. -/
theorem sourcePropertiesHold : Obligations.SourcePropertiesHold := by
  intro o fb len
  simp only [← ipHdrLen_eq_nibble, ← tcpHdrLen_eq_nibble, ← be16_eq_ipv4_iff, ne_eq]
  refine ⟨?short, ?otherType, ?ipHeader, ?tcpHeader⟩
  case short =>
    intro hl
    rw [decodeFrame_short hl, decodeReads_eq, if_pos hl]
    exact ⟨rfl, rfl, rfl⟩
  case otherType =>
    intro hl ht
    rw [decodeFrame_otherType hl ht]
    exact ⟨rfl, rfl⟩
  case ipHeader =>
    intro hl ht hb
    rw [decodeFrame_badIpHeader ht hl (.inr (by omega))]
    exact ⟨rfl, rfl, rfl, rfl, rfl, rfl, rfl⟩
  case tcpHeader =>
    intro ht h20 hp hm hb
    rw [decodeFrame_badTcpHeader ht (by omega) h20 hp hm (.inr (by omega))]
    exact ⟨rfl, rfl, rfl, rfl, rfl, rfl, rfl, rfl, rfl⟩

/-- Settles O49: the reasons by their conditions, one for each code, and the depths from the reason a decode ends with. -/
theorem depthsAndReasonsAreCharacterised : Obligations.DepthsAndReasonsAreCharacterised := by
  intro o fb len
  have reason := decodeFrame_stopReason_code_iff o fb len
  have full := decodeFrame_depth_eq_ethIpTcp_iff o fb len
  have one := decodeFrame_one_le_depth_iff o fb len
  have hp : (fb 23).toNat = 6 ↔ fb 23 = 6 := BitVec.toNat_inj (y := 6#8)
  simp only [← ipHdrLen_eq_nibble, ← tcpHdrLen_eq_nibble, ← be16_eq_ipv4_iff, hp, ne_eq, ← ipValid_iff,
    ← tcpValid_iff]
  refine ⟨?none, one, decodeFrame_two_le_depth_iff o fb len, full.trans decodeFrame_stopReason_eq_iff,
    reason .truncatedFrame, reason .unsupportedEtherType, reason .invalidOrTruncatedIpHeader,
    reason .unsupportedIpProtocol, reason .invalidOrTruncatedTcpHeader, ?reasonNone⟩
  case none => rw [Depth.eq_none_iff, one, Nat.not_le]
  case reasonNone => exact (reason .none).trans (full.trans decodeFrame_stopReason_eq_iff).symm

end Sys2Proof.Machine
end

section
/-! Proofs. The Renderer's characters and numerals: the hexadecimal digits, the ASCII rendering of a byte and the decimal
numerals (spec/45_renderer_host.md R243 to R245, R250). -/

namespace Sys2Proof.Machine

/-- A printable ASCII character (R250, R252). -/
def Printable (c : Char) : Prop := 0x20 ≤ c.toNat ∧ c.toNat ≤ 0x7e

theorem printable_space : Printable ' ' := ⟨by decide, by decide⟩

/-- The codes the Renderer prints are characters, so none is replaced by the null character. -/
theorem toNat_ofNat_of_le {n : Nat} (h : n ≤ 0x7e) : (Char.ofNat n).toNat = n := by
  rw [Char.toNat_ofNat, if_pos (.inl (by omega))]

/-! Hexadecimal digits. -/

theorem some_hexDigit_eq {n : Nat} (h : n < 16) : some (hexDigit n) = "0123456789abcdef".toList[n % 16]? := by
  revert n; decide

theorem hexDigit_printable {n : Nat} (h : n < 16) : Printable (hexDigit n) := by
  unfold hexDigit Printable
  split <;> rw [toNat_ofNat_of_le (by omega)] <;> omega

/-- The two nibbles of a byte. -/
theorem nibbles_lt_sixteen (b : Byte) : b.toNat / 16 < 16 ∧ b.toNat % 16 < 16 := by
  have hb := b.isLt
  omega

theorem hex2_printable {b : Byte} {c : Char} (hc : c ∈ hex2 b) : Printable c := by
  obtain ⟨hhigh, hlow⟩ := nibbles_lt_sixteen b
  simp only [hex2, List.mem_cons, List.not_mem_nil, or_false] at hc
  rcases hc with rfl | rfl
  · exact hexDigit_printable hhigh
  · exact hexDigit_printable hlow

theorem hex4_printable {n : Nat} {c : Char} (hc : c ∈ hex4 n) : Printable c := by
  simp only [hex4, List.mem_cons, List.not_mem_nil, or_false] at hc
  rcases hc with rfl | rfl | rfl | rfl <;> exact hexDigit_printable (Nat.mod_lt _ (by decide))

/-! The ASCII rendering of a byte. -/

theorem asciiChar_of_printable {b : Byte} (hl : 0x20 ≤ b.toNat) (hu : b.toNat ≤ 0x7e) :
    (asciiChar b).toNat = b.toNat := by
  rw [asciiChar, if_pos ⟨hl, hu⟩, toNat_ofNat_of_le hu]

theorem asciiChar_of_not_printable {b : Byte} (h : ¬ (0x20 ≤ b.toNat ∧ b.toNat ≤ 0x7e)) : asciiChar b = '.' := if_neg h

theorem asciiChar_printable (b : Byte) : Printable (asciiChar b) := by
  by_cases h : 0x20 ≤ b.toNat ∧ b.toNat ≤ 0x7e
  · rw [Printable, asciiChar_of_printable h.1 h.2]; exact h
  · rw [asciiChar_of_not_printable h]; exact ⟨by decide, by decide⟩

/-! Decimal numerals. -/

/-- The value of a list of decimal digits, the most significant first. -/
def decValue (t : Text) : Nat := t.foldl (fun acc c => 10 * acc + (c.toNat - 48)) 0

@[simp] theorem decValue_append_singleton (t : Text) (c : Char) :
    decValue (t ++ [c]) = 10 * decValue t + (c.toNat - 48) := by
  simp [decValue]

@[simp] theorem decValue_singleton (c : Char) : decValue [c] = c.toNat - 48 := Nat.zero_add _

theorem toNat_digit {d : Nat} (h : d < 10) : (Char.ofNat (48 + d)).toNat = 48 + d := toNat_ofNat_of_le (by omega)

theorem decDigits_of_lt_ten {n : Nat} (fuel : Nat) (h : n < 10) : decDigits (fuel + 1) n = [Char.ofNat (48 + n)] :=
  if_pos h

theorem decDigits_of_ten_le {n : Nat} (fuel : Nat) (h : 10 ≤ n) :
    decDigits (fuel + 1) n = decDigits fuel (n / 10) ++ [Char.ofNat (48 + n % 10)] :=
  if_neg (Nat.not_lt.2 h)

theorem decValue_decDigits {fuel n : Nat} (h : n < 10 ^ fuel) : decValue (decDigits fuel n) = n := by
  induction fuel generalizing n with
  | zero => exact (Nat.lt_one_iff.1 h).symm
  | succ fuel ih =>
    by_cases hn : n < 10
    · rw [decDigits_of_lt_ten fuel hn, decValue_singleton, toNat_digit hn, Nat.add_sub_cancel_left]
    · have hq : n / 10 < 10 ^ fuel := Nat.div_lt_of_lt_mul (by rwa [← Nat.pow_succ'])
      rw [decDigits_of_ten_le fuel (Nat.not_lt.1 hn), decValue_append_singleton, ih hq,
        toNat_digit (Nat.mod_lt _ (by decide))]
      omega

theorem digit_of_mem_decDigits {fuel n : Nat} {c : Char} (hc : c ∈ decDigits fuel n) : 48 ≤ c.toNat ∧ c.toNat ≤ 57 := by
  have digit {d : Nat} (h : d < 10) : 48 ≤ (Char.ofNat (48 + d)).toNat ∧ (Char.ofNat (48 + d)).toNat ≤ 57 := by
    rw [toNat_digit h]; omega
  induction fuel generalizing n with
  | zero => cases hc
  | succ fuel ih =>
    by_cases hn : n < 10
    · rw [decDigits_of_lt_ten fuel hn] at hc
      obtain rfl := List.mem_singleton.1 hc
      exact digit hn
    · rw [decDigits_of_ten_le fuel (Nat.not_lt.1 hn), List.mem_append, List.mem_singleton] at hc
      rcases hc with hc | rfl
      · exact ih hc
      · exact digit (Nat.mod_lt _ (by decide))

/-- The leading digit of a positive number is positive: the last quotient the digits come from is not 0. -/
theorem decDigits_head?_of_pos {fuel n : Nat} (hpos : 0 < n) (h : n < 10 ^ fuel) :
    ∃ d, 0 < d ∧ d < 10 ∧ (decDigits fuel n).head? = some (Char.ofNat (48 + d)) := by
  induction fuel generalizing n with
  | zero => exact absurd h (Nat.not_lt.2 hpos)
  | succ fuel ih =>
    by_cases hn : n < 10
    · exact ⟨n, hpos, hn, by rw [decDigits_of_lt_ten fuel hn]; rfl⟩
    · have hq : n / 10 < 10 ^ fuel := Nat.div_lt_of_lt_mul (by rwa [← Nat.pow_succ'])
      obtain ⟨d, hd, hd10, hhead⟩ := ih (by omega) hq
      exact ⟨d, hd, hd10, by rw [decDigits_of_ten_le fuel (Nat.not_lt.1 hn), List.head?_append, hhead]; rfl⟩

end Sys2Proof.Machine
end

section
/-! Proofs. The layout of a dump row, and the bytes the rows of a dump show (spec/45_renderer_host.md R248, R249). -/

namespace Sys2Proof.Machine

section
variable {α β : Type} {f : α → List β} {w : Nat} (hw : ∀ x, (f x).length = w)
include hw

/-- Columns of one width take that width each. -/
theorem length_flatMap_of_width (l : List α) : (l.flatMap f).length = w * l.length := by
  simp [List.length_flatMap, hw, Nat.mul_comm]

/-- Column `i` of a text of columns of one width, whatever follows them. -/
theorem take_drop_flatMap_of_width (l : List α) (t : List β) {i : Nat} (hi : i < l.length) :
    ((l.flatMap f ++ t).drop (w * i)).take w = f l[i] := by
  induction l generalizing i with
  | nil => cases hi
  | cons x xs ih =>
    rw [List.flatMap_cons, List.append_assoc]
    cases i with
    | zero => exact List.take_left' (hw x)
    | succ i =>
      rw [Nat.mul_succ, Nat.add_comm, ← List.drop_drop, List.drop_left' (hw x)]
      exact ih (Nat.lt_of_succ_lt_succ hi)

end

/-! A dump row by position (R249). -/

theorem hexColumns_length (row : List Byte) : ((List.range Config.dumpRow).flatMap (hexColumn row)).length = 48 := by
  rw [length_flatMap_of_width (hexColumn_length row), List.length_range]; rfl

/-- Everything before the ASCII column takes 53 positions, the last of which is the space. -/
theorem offset_append_hexColumns_length (r : Nat) (row : List Byte) :
    (hex4 (Config.dumpRow * r) ++ (List.range Config.dumpRow).flatMap (hexColumn row)).length = 52 := by
  rw [List.length_append, hexColumns_length, hex4_length]

@[simp] theorem dumpRowText_length (r : Nat) (row : List Byte) : (dumpRowText r row).length = 53 + row.length := by
  rw [dumpRowText, List.length_append, List.length_append, offset_append_hexColumns_length, List.length_map,
    List.length_singleton]

theorem dumpRowText_offset (r : Nat) (row : List Byte) : (dumpRowText r row).take 4 = hex4 (16 * r) := by
  simp only [dumpRowText, List.append_assoc]
  exact List.take_left' (hex4_length _)

theorem dumpRowText_hexColumn (r : Nat) (row : List Byte) {i : Nat} (hi : i < 16) :
    ((dumpRowText r row).drop (4 + 3 * i)).take 3 = hexColumn row i := by
  simp only [dumpRowText, List.append_assoc]
  rw [← List.drop_drop, List.drop_left' (hex4_length _),
    take_drop_flatMap_of_width (hexColumn_length row) _ _ (by rwa [List.length_range]), List.getElem_range]

theorem dumpRowText_separator (r : Nat) (row : List Byte) : (dumpRowText r row)[52]? = some ' ' := by
  rw [dumpRowText, List.append_assoc, List.getElem?_append_right (offset_append_hexColumns_length r row).le,
    offset_append_hexColumns_length]
  rfl

theorem dumpRowText_ascii (r : Nat) (row : List Byte) : (dumpRowText r row).drop 53 = row.map asciiChar :=
  List.drop_left' (by rw [List.length_append, offset_append_hexColumns_length]; rfl)

theorem hexColumn_of_some {row : List Byte} {i : Nat} {b : Byte} (h : row[i]? = some b) :
    hexColumn row i = ' ' :: hex2 b := by
  rw [hexColumn, h]

theorem hexColumn_of_none {row : List Byte} {i : Nat} (h : row[i]? = none) : hexColumn row i = [' ', ' ', ' '] := by
  rw [hexColumn, h]

theorem hexColumn_printable {row : List Byte} {i : Nat} {c : Char} (hc : c ∈ hexColumn row i) : Printable c := by
  cases h : row[i]? with
  | some b =>
    rw [hexColumn_of_some h, List.mem_cons] at hc
    rcases hc with rfl | hc
    · exact printable_space
    · exact hex2_printable hc
  | none =>
    rw [hexColumn_of_none h] at hc
    obtain rfl := List.eq_of_mem_replicate (n := 3) hc
    exact printable_space

theorem dumpRowText_printable {r : Nat} {row : List Byte} {c : Char} (hc : c ∈ dumpRowText r row) : Printable c := by
  simp only [dumpRowText, List.mem_append, List.mem_flatMap, List.mem_singleton, List.mem_map] at hc
  rcases hc with ((hc | ⟨_, -, hc⟩) | rfl) | ⟨b, -, rfl⟩
  · exact hex4_printable hc
  · exact hexColumn_printable hc
  · exact printable_space
  · exact asciiChar_printable b

/-! The bytes that the rows show. -/

theorem rowCount_eq (n : Nat) : rowCount n = (n + 15) / 16 := rfl

/-- Byte `j` of a slice stands in its row `j / 16`, at place `j % 16`. -/
theorem rowBytes_getElem? (d : List Byte) (j : Nat) : (rowBytes d (j / 16))[j % 16]? = d[j]? := by
  rw [rowBytes, List.getElem?_take_of_lt (Nat.mod_lt _ (by decide)), List.getElem?_drop, Nat.div_add_mod]

/-- The first `m` rows hold the first `16 m` bytes, in order. -/
theorem flatMap_rowBytes (d : List Byte) (m : Nat) : (List.range m).flatMap (rowBytes d) = d.take (16 * m) := by
  induction m with
  | zero => rfl
  | succ m ih =>
    rw [List.range_succ, List.flatMap_append, ih, Nat.mul_succ, List.take_add, List.flatMap_singleton, rowBytes]

/-- All rows of a slice hold the whole slice. -/
theorem flatMap_rowBytes_rowCount (d : List Byte) : (List.range (rowCount d.length)).flatMap (rowBytes d) = d := by
  rw [flatMap_rowBytes, List.take_of_length_le]
  rw [rowCount_eq]; omega

@[simp] theorem dumpRows_length (payload : List Byte) :
    (dumpRows payload).length = (min payload.length 128 + 15) / 16 := by
  rw [dumpRows, List.length_map, List.length_range, dumpSlice_length, rowCount_eq]

/-- The ASCII columns of the rows are the slice's rendering. -/
theorem flatMap_ascii_dumpRows (payload : List Byte) :
    (dumpRows payload).flatMap (fun row => row.drop 53) = (dumpSlice payload).map asciiChar := by
  rw [dumpRows, List.flatMap_map]
  simp only [dumpRowText_ascii]
  rw [← List.map_flatMap, flatMap_rowBytes_rowCount]

/-- Only the slice is dumped (R248). -/
theorem dumpRows_take (payload : List Byte) : dumpRows (payload.take 128) = dumpRows payload := by
  simp only [dumpRows, dumpSlice, List.take_take, Nat.min_self]

/-- A payload byte that is dumped has a row that shows it. -/
theorem exists_dumpRows_hexColumn {payload : List Byte} {j : Nat} (h : j < payload.length) (hj : j < 128) :
    ∃ row, (dumpRows payload)[j / 16]? = some row ∧ (row.drop (4 + 3 * (j % 16))).take 3 = ' ' :: hex2 payload[j] := by
  have hrow : j / 16 < rowCount (min payload.length 128) := by rw [rowCount_eq]; omega
  have hbyte : (rowBytes (dumpSlice payload) (j / 16))[j % 16]? = some payload[j] := by
    rw [rowBytes_getElem?, dumpSlice, List.getElem?_take_of_lt hj, List.getElem?_eq_getElem h]
  refine ⟨_, dumpRows_getElem?_eq_some_iff.2 ⟨hrow, rfl⟩, ?_⟩
  rw [dumpRowText_hexColumn _ _ (Nat.mod_lt _ (by decide)), hexColumn_of_some hbyte]

end Sys2Proof.Machine
end

section
/-! Proofs. The obligations of spec/45_renderer_host.md. -/

namespace Sys2Proof.Machine

/-- Settles O56: every row is the row text of its sixteen bytes, and the rows together hold the slice that is dumped. -/
theorem dumpRowCounts : Obligations.DumpRowCounts := by
  intro payload
  refine ⟨dumpRows_length payload, by rw [dumpRows_length]; omega, ?row, fun j => exists_dumpRows_hexColumn,
    flatMap_ascii_dumpRows payload, (dumpRows_take payload).symm, fun p => rfl⟩
  case row =>
    intro k row hrow
    obtain ⟨-, rfl⟩ := dumpRows_getElem?_eq_some_iff.1 hrow
    rw [dumpRowText_length, rowBytes_length, dumpSlice_length, dumpRows_length]
    exact ⟨dumpRowText_offset _ _, rfl, by omega⟩

/-- Settles O57: a row is made of hexadecimal digits, spaces and renderings of bytes, all printable. -/
theorem dumpIsPrintableAscii : Obligations.DumpIsPrintableAscii := by
  refine ⟨?rows, fun b => asciiChar_of_printable, fun b h => asciiChar_of_not_printable (by omega)⟩
  case rows =>
    intro payload row c hrow hc
    obtain ⟨r, -, rfl⟩ := List.mem_map.1 hrow
    exact dumpRowText_printable hc

/-- Settles O58: ten digits are enough for 32 bits. -/
theorem decimalNumeralsAreExact : Obligations.DecimalNumeralsAreExact := by
  intro n hn
  have h10 : n < 10 ^ 10 := by omega
  refine ⟨decValue_decDigits h10, fun c => digit_of_mem_decDigits, ?zero, ?pos⟩
  case zero => rintro rfl; rfl
  case pos =>
    intro hpos hzero
    obtain ⟨d, hd, hd10, hhead⟩ := decDigits_head?_of_pos hpos h10
    have hcode : (Char.ofNat (48 + d)).toNat = 48 :=
      congrArg Char.toNat (Option.some.inj (hhead.symm.trans hzero))
    rw [toNat_digit hd10] at hcode
    omega

/-- Settles O55: the row position by position, and the digits against their table. -/
theorem dumpRowsAreAligned : Obligations.DumpRowsAreAligned := by
  refine ⟨?row, ?byte, ?offset⟩
  case row =>
    intro r row _
    exact ⟨dumpRowText_length r row, dumpRowText_offset r row, fun i => dumpRowText_hexColumn r row,
      dumpRowText_separator r row, dumpRowText_ascii r row⟩
  case byte =>
    intro b
    obtain ⟨hhigh, hlow⟩ := nibbles_lt_sixteen b
    simp only [hex2, List.map_cons, List.map_nil, some_hexDigit_eq hhigh, some_hexDigit_eq hlow, Nat.mod_mod]
  case offset =>
    intro n
    simp only [hex4, List.map_cons, List.map_nil, some_hexDigit_eq (Nat.mod_lt _ (by decide : 0 < 16)), Nat.mod_mod]

/-- Settles O59: at each of the four depths the flags are known, but for PAY_NE at the full depth, which tests PAY_LEN as
`render` does. -/
theorem renderedPartsFollowTheDepth : Obligations.RenderedPartsFollowTheDepth := by
  intro p s
  rw [renderState, State.frame]
  cases hd : s.depth <;>
    simp [frameOf, render, State.ethV, State.ipV, State.tcpV, State.payNe, hd, Depth.code]

end Sys2Proof.Machine
end
